-- ==== Sys2Proof/Word.lean ====
section
/-! DEFINITION. The widths the spec gives the machine's values (00_scope.md R6, 30_encoding.md R47), as fixed-width bit vectors. -/

namespace Sys2Proof

/-- Four bits: one of the four fields of an instruction word, or one packed pixel of a glyph. -/
abbrev Nibble := BitVec 4

/-- Eight bits: a general register, a memory byte, `f_reg`, a stored pixel. -/
abbrev Byte := BitVec 8

/-- Sixteen bits: an instruction word, `pc`, `dt`, `loop_point`. -/
abbrev Word := BitVec 16

/-- The number of a general register; all sixteen values name one (10_state.md R14). -/
abbrev RegNo := Nibble

/-- The 12-bit operand `NNN` of a jump (30_encoding.md R48). -/
abbrev Addr12 := BitVec 12

end Sys2Proof
end

