-- ==== Sys2Proof/Config.lean ====
section
/-! DEFINITION. What an implementation fixes: the three memory constants the spec leaves open (00_scope.md R7), the
layout switch (30_encoding.md R51) and the answers of the random source (00_scope.md R12). The open values are opaque
constants with no body, so no proof can use a value of them. -/

namespace Sys2Proof

/-- The three memory parameters, `MEM_SIZE`, `SPRITE_ROM_START` and `FONT_ROM_START` (00_scope.md R7). -/
structure Geometry where
  memSize     : Nat
  spriteStart : Nat
  fontStart   : Nat
  deriving DecidableEq, Repr

/-- The geometry that three arbitrary numbers select. Every geometry that meets the constraints of 00_scope.md R7 is
the value of this function at some arguments, and no other is (Laws/Config.lean, `ofRaw_wellFormed`, `ofRaw_covers`). -/
def Geometry.ofRaw (a b c : Nat) : Geometry :=
  let memSize := a % 65024 + 513
  let spriteStart := b % (memSize - 512) + 1
  { memSize, spriteStart, fontStart := spriteStart + c % (memSize - 320 - spriteStart + 1) }

/-- The implementation's choice of the three memory constants, as three free numbers (log entry 1). -/
opaque Config.rawMemSize : Nat

/-- See `Config.rawMemSize`. -/
opaque Config.rawSpriteStart : Nat

/-- See `Config.rawMemSize`. -/
opaque Config.rawFontStart : Nat

/-- The geometry of the machine: some geometry within 00_scope.md R7, unknown to every proof (log entry 1). -/
def Config.geometry : Geometry :=
  Geometry.ofRaw Config.rawMemSize Config.rawSpriteStart Config.rawFontStart

/-- `draw16()`: the environment's answer to the `n`-th `RND`, any value 0..15 (00_scope.md R12, 41_alu.md R79; log
entry 4). -/
opaque Config.draw : Nat → Nibble

/-- The switch `SUBOP_LAYOUT` (30_encoding.md R51, 92_eei_decisions.md D1): which nibble of the seven patterns of
format `N` holds the sub-opcode. The value the model uses is `subopLayout` in Decode.lean. -/
inductive SubopLayout where
  /-- `d2 = 0`, `d3` = sub-opcode: the spec's reading. -/
  | d3
  /-- `d2` = sub-opcode, `d3 = 0`: the reading the spec keeps as an alternative. -/
  | d2
  deriving DecidableEq, Repr

end Sys2Proof
end

