-- ==== Sys2Proof/Syntax.lean ====
section
/-! DEFINITION. The 28 instructions of 30_encoding.md R50, one constructor per row of spec/opcode_table.json, in its
order. An operand has exactly the width of its field, so every term of `Instr` is an instruction the encoding can hold. -/

namespace Sys2Proof

/-- An S-8 instruction. `x`, `y`, `z` are the fields `d2`, `d3`, `d4`; `n` is the field `N`. Each docstring names the
encoding and the rule of spec/ that gives the meaning. -/
inductive Instr where
  /-- `NOP`, 0000 (40_step_dispatch.md R65). -/
  | nop
  /-- `CLS`, 000C (44_blit.md R105). -/
  | cls
  /-- `JP nnn`, 1NNN (42_branch_skip.md R81). -/
  | jp (nnn : Addr12)
  /-- `LDI Sx, nn`, 2XNN (41_alu.md R70). -/
  | ldi (x : RegNo) (nn : Byte)
  /-- `ADDI Sx, nn`, 3XNN (41_alu.md R71). -/
  | addi (x : RegNo) (nn : Byte)
  /-- `SUBI Sx, nn`, 4XNN (41_alu.md R72). -/
  | subi (x : RegNo) (nn : Byte)
  /-- `MOV Sy, Sz`, 50YZ (41_alu.md R73). -/
  | mov (y z : RegNo)
  /-- `ADD Sy, Sz`, 51YZ (41_alu.md R74). -/
  | add (y z : RegNo)
  /-- `SUB Sy, Sz`, 52YZ (41_alu.md R75). -/
  | sub (y z : RegNo)
  /-- `MUL Sy, Sz`, 53YZ (41_alu.md R76). -/
  | mul (y z : RegNo)
  /-- `DIV Sy, Sz`, 54YZ (41_alu.md R77). -/
  | div (y z : RegNo)
  /-- `SE Sy, Sz`, 55YZ (42_branch_skip.md R82). -/
  | se (y z : RegNo)
  /-- `SNE Sy, Sz`, 56YZ (42_branch_skip.md R83). -/
  | sne (y z : RegNo)
  /-- `SGT Sy, Sz`, 57YZ (42_branch_skip.md R84). -/
  | sgt (y z : RegNo)
  /-- `SOVA Sy, Sz`, 58YZ (42_branch_skip.md R86). -/
  | sova (y z : RegNo)
  /-- `SOVB Sy, Sz`, 59YZ (42_branch_skip.md R87). -/
  | sovb (y z : RegNo)
  /-- `SCOL Sy, Sz`, 5AYZ (42_branch_skip.md R88). -/
  | scol (y z : RegNo)
  /-- `SETF n`, 600N; `n` is a literal (43_special_regs.md R93). -/
  | setf (n : Nibble)
  /-- `SETFR Sn`, 601N (43_special_regs.md R94). -/
  | setfr (n : RegNo)
  /-- `RND Sn`, 700N (41_alu.md R79). -/
  | rnd (n : RegNo)
  /-- `LPR Sn`, 701N (43_special_regs.md R95). -/
  | lpr (n : RegNo)
  /-- `LPI n`, 800N; `n` is a literal (43_special_regs.md R96). -/
  | lpi (n : Nibble)
  /-- `SKP Sn`, 900N (42_branch_skip.md R89). -/
  | skp (n : RegNo)
  /-- `SKNP Sn`, 901N (42_branch_skip.md R90). -/
  | sknp (n : RegNo)
  /-- `RSK x, Sy, Sz`, AXYZ; `x` is a literal count (42_branch_skip.md R91). -/
  | rsk (x : Nibble) (y z : RegNo)
  /-- `DRW x, Sy, Sz`, DXYZ; `x` is a literal sprite index (44_blit.md R106). -/
  | drw (x : Nibble) (y z : RegNo)
  /-- `NUM Sx, Sy, Sz`, EXYZ (44_blit.md R107). -/
  | num (x y z : RegNo)
  /-- `DIG Sx, Sy, Sz`, FXYZ (44_blit.md R108). -/
  | dig (x y z : RegNo)
  deriving DecidableEq, Repr

end Sys2Proof
end

