-- ==== Sys2Proof/Decode.lean ====
section
/-! DEFINITION. The decoder of 30_encoding.md R49, the encoder from the same table (R50), and their forms on bytes
(20_memory.md R33). -/

namespace Sys2Proof

/-- The reading of the seven five-character patterns that the model follows (30_encoding.md R51, 90_conflicts.md C1;
log entry 3). -/
def subopLayout : SubopLayout := .d3

/-- `d1 = op[15:12]`, the family (30_encoding.md R47). -/
def fieldD1 (op : Word) : Nibble := op.extractLsb' 12 4

/-- `d2 = op[11:8]`. -/
def fieldD2 (op : Word) : Nibble := op.extractLsb' 8 4

/-- `d3 = op[7:4]`. -/
def fieldD3 (op : Word) : Nibble := op.extractLsb' 4 4

/-- `d4 = op[3:0]`. -/
def fieldD4 (op : Word) : Nibble := op.extractLsb' 0 4

/-- `NN = op[7:0]` (30_encoding.md R48). -/
def fieldNN (op : Word) : Byte := op.extractLsb' 0 8

/-- `NNN = op[11:0]` (30_encoding.md R48). -/
def fieldNNN (op : Word) : Addr12 := op.extractLsb' 0 12

/-- The sub-opcode of a word of format `N`, or none where the nibble that must be zero is not (30_encoding.md R51). -/
def fieldSubop (l : SubopLayout) (op : Word) : Option Nat :=
  match l with
  | .d3 => if fieldD2 op = 0 then some (fieldD3 op).toNat else none
  | .d2 => if fieldD3 op = 0 then some (fieldD2 op).toNat else none

/-- Family 0: only the all-zero word and 000C are instructions. -/
def decodeFamily0 (op : Word) : Option Instr :=
  if op = 0x0000 then some .nop else if op = 0x000C then some .cls else none

/-- Family 5: the sub-opcode is `d2`, the registers are `d3` and `d4`. -/
def decodeFamily5 (op : Word) : Option Instr :=
  let y := fieldD3 op
  let z := fieldD4 op
  match (fieldD2 op).toNat with
  | 0x0 => some (.mov y z)
  | 0x1 => some (.add y z)
  | 0x2 => some (.sub y z)
  | 0x3 => some (.mul y z)
  | 0x4 => some (.div y z)
  | 0x5 => some (.se y z)
  | 0x6 => some (.sne y z)
  | 0x7 => some (.sgt y z)
  | 0x8 => some (.sova y z)
  | 0x9 => some (.sovb y z)
  | 0xA => some (.scol y z)
  | _ => none

/-- Families 6, 7, 8 and 9: format `N`. -/
def decodeFamilyN (l : SubopLayout) (op : Word) : Option Instr :=
  let n := fieldD4 op
  match (fieldD1 op).toNat, fieldSubop l op with
  | 0x6, some 0 => some (.setf n)
  | 0x6, some 1 => some (.setfr n)
  | 0x7, some 0 => some (.rnd n)
  | 0x7, some 1 => some (.lpr n)
  | 0x8, some 0 => some (.lpi n)
  | 0x9, some 0 => some (.skp n)
  | 0x9, some 1 => some (.sknp n)
  | _, _ => none

/-- `decode(op)` of 30_encoding.md R49 under a layout; `none` is `Unimplemented`. -/
def decodeWith (l : SubopLayout) (op : Word) : Option Instr :=
  match (fieldD1 op).toNat with
  | 0x0 => decodeFamily0 op
  | 0x1 => some (.jp (fieldNNN op))
  | 0x2 => some (.ldi (fieldD2 op) (fieldNN op))
  | 0x3 => some (.addi (fieldD2 op) (fieldNN op))
  | 0x4 => some (.subi (fieldD2 op) (fieldNN op))
  | 0x5 => decodeFamily5 op
  | 0x6 | 0x7 | 0x8 | 0x9 => decodeFamilyN l op
  | 0xA => some (.rsk (fieldD2 op) (fieldD3 op) (fieldD4 op))
  | 0xD => some (.drw (fieldD2 op) (fieldD3 op) (fieldD4 op))
  | 0xE => some (.num (fieldD2 op) (fieldD3 op) (fieldD4 op))
  | 0xF => some (.dig (fieldD2 op) (fieldD3 op) (fieldD4 op))
  | _ => none

/-- The decoder of the model: `none` is `Unimplemented` (30_encoding.md R49, R52). -/
def decode (op : Word) : Option Instr := decodeWith subopLayout op

/-- The word with the given four nibbles, the most significant first (30_encoding.md R47). -/
def ofNibbles (a b c d : Nibble) : Word := a ++ b ++ c ++ d

/-- The word of a family, a register number and an 8-bit literal: format `I`. -/
def ofNibblesByte (a b : Nibble) (nn : Byte) : Word := a ++ b ++ nn

/-- The word of format `N` with family `f`, sub-opcode `s` and operand `n` (30_encoding.md R51). -/
def ofSubop (l : SubopLayout) (f s n : Nibble) : Word :=
  match l with
  | .d3 => ofNibbles f 0 s n
  | .d2 => ofNibbles f s 0 n

/-- The word of an instruction, from the table of 30_encoding.md R50, under a layout. -/
def encodeWith (l : SubopLayout) (i : Instr) : Word :=
  match i with
  | .nop => 0x0000
  | .cls => 0x000C
  | .jp nnn => 0x1#4 ++ nnn
  | .ldi x nn => ofNibblesByte 0x2 x nn
  | .addi x nn => ofNibblesByte 0x3 x nn
  | .subi x nn => ofNibblesByte 0x4 x nn
  | .mov y z => ofNibbles 0x5 0x0 y z
  | .add y z => ofNibbles 0x5 0x1 y z
  | .sub y z => ofNibbles 0x5 0x2 y z
  | .mul y z => ofNibbles 0x5 0x3 y z
  | .div y z => ofNibbles 0x5 0x4 y z
  | .se y z => ofNibbles 0x5 0x5 y z
  | .sne y z => ofNibbles 0x5 0x6 y z
  | .sgt y z => ofNibbles 0x5 0x7 y z
  | .sova y z => ofNibbles 0x5 0x8 y z
  | .sovb y z => ofNibbles 0x5 0x9 y z
  | .scol y z => ofNibbles 0x5 0xA y z
  | .setf n => ofSubop l 0x6 0 n
  | .setfr n => ofSubop l 0x6 1 n
  | .rnd n => ofSubop l 0x7 0 n
  | .lpr n => ofSubop l 0x7 1 n
  | .lpi n => ofSubop l 0x8 0 n
  | .skp n => ofSubop l 0x9 0 n
  | .sknp n => ofSubop l 0x9 1 n
  | .rsk x y z => ofNibbles 0xA x y z
  | .drw x y z => ofNibbles 0xD x y z
  | .num x y z => ofNibbles 0xE x y z
  | .dig x y z => ofNibbles 0xF x y z

/-- The word of an instruction, in the model's layout. -/
def encode (i : Instr) : Word := encodeWith subopLayout i

/-- The word two bytes of memory hold, the byte at the lower address in the high half (20_memory.md R33). -/
def wordOfBytes (hi lo : Byte) : Word := hi ++ lo

/-- The high half of a word: the byte at the lower address. -/
def highByte (op : Word) : Byte := op.extractLsb' 8 8

/-- The low half of a word: the byte at the higher address. -/
def lowByte (op : Word) : Byte := op.extractLsb' 0 8

/-- The bytes of an instruction in memory, the lowest address first. -/
def encodeBytes (i : Instr) : List Byte := [highByte (encode i), lowByte (encode i)]

/-- Why a sequence of bytes does not begin with an instruction. -/
inductive DecodeError where
  /-- The word matches no row of the opcode map: `Unimplemented` (30_encoding.md R52). -/
  | unimplemented (op : Word)
  /-- Fewer than two bytes are left: there is no word (30_encoding.md R46). -/
  | truncated
  deriving DecidableEq, Repr

/-- The decoder on bytes: the first instruction and the bytes after it, or the reason there is none. -/
def decodeBytes (bs : List Byte) : Except DecodeError (Instr × List Byte) :=
  match bs with
  | hi :: lo :: rest =>
    match decode (wordOfBytes hi lo) with
    | some i => .ok (i, rest)
    | none => .error (.unimplemented (wordOfBytes hi lo))
  | _ => .error .truncated

/-- The instruction word whose low `nbits` bits are those of `w` and whose other bits are 0. -/
def tableWord (nbits w : Nat) : Word := BitVec.ofNat 16 (w % 2 ^ nbits)

/-- What the decoder reads from the bytes of the instruction word that the opcode table numbers `w`. -/
def decodeTableWord (nbits w : Nat) : Option Instr :=
  match decodeBytes [highByte (tableWord nbits w), lowByte (tableWord nbits w)] with
  | .ok (i, _) => some i
  | .error _ => none

end Sys2Proof
end

