-- ==== Sys2Proof/Machine/State.lean ====
section
/-! DEFINITION. The machine's state, all of 10_state.md R13, its values after reset (R28), and the ways a step can stop. -/

namespace Sys2Proof.Machine

/-- The four kinds of fault, a closed list (60_exceptions.md R120). -/
inductive FaultKind where
  /-- A fetch, a glyph read or a `LOAD` reaches a memory index out of bounds (R121). -/
  | addressing
  /-- The fetched word matches no instruction (R122). -/
  | unimplementedOpcode
  /-- `SKP` or `SKNP` on a register value of 6 or more (R123). -/
  | invalidKeyIndex
  /-- `DIV` by zero (R124). -/
  | arithmetic
  deriving DecidableEq, Repr

/-- The cause codes 1 to 4 of 60_exceptions.md R127; the spec's own numbering (92_eei_decisions.md D10). -/
def FaultKind.code : FaultKind → Nat
  | .addressing => 1
  | .unimplementedOpcode => 2
  | .invalidKeyIndex => 3
  | .arithmetic => 4

/-- The record `(kind, opcode, at)` that a fault leaves (60_exceptions.md R127). -/
structure FaultRecord where
  kind    : FaultKind
  /-- The word being executed, or none where no word was fetched. -/
  opcode  : Option Word
  /-- The record's `at`: the address the faulting instruction was fetched from, or none for a `LOAD` fault. -/
  address : Option Word
  deriving DecidableEq, Repr

/-- Memory as (address, byte) pairs in canonical form: addresses strictly rising, no byte equal to what an unlisted
address reads as (`Memory.wf`). -/
abbrev Memory := List Host.Cell

/-- The framebuffer `fb[x][y]`, `x` the column and `y` the row, pixels stored as bytes (10_state.md R22). -/
abbrev Framebuffer := Vector (Vector Byte 64) 64

/-- The complete state of the core (10_state.md R13), and one field of the model's own, `drawCount`. -/
structure State where
  /-- `S[0..15]` (10_state.md R14). -/
  regs      : Vector Byte 16
  /-- `pc` (R16). -/
  pc        : Word
  /-- `dt`, which only the host increments (R18). -/
  dt        : Word
  /-- `f_reg`, the font colour (R19). -/
  fReg      : Byte
  /-- `loop_point` (R20). -/
  loopPoint : Word
  /-- `keys[0..5]`, the input latch (R21). -/
  keys      : Vector Bool 6
  /-- `fb` (R22). -/
  fb        : Framebuffer
  /-- `mem` (R23). -/
  mem       : Memory
  /-- The `fault` latch: `none`, or the record of the fault that halted the core (R24). -/
  fault     : Option FaultRecord
  /-- The model's own: how many draws the random source has given, so that each `RND` takes a fresh one (log entry 4). -/
  drawCount : Nat
  deriving DecidableEq, Repr

/-- Why the machine has no next state. -/
inductive Fault where
  /-- The core is halted by the fault with this record, and only `RESET` restarts it. Raised by `step` and by the
  host operations `LOAD`, `SET_PC`, `TICK_DT`, `KEY_DOWN`, `KEY_UP` while the latch is set (60_exceptions.md R128).
  Safe: the spec gives no step there (log entry 5). `hostCall` turns it into the record answered and no change. -/
  | halted (r : FaultRecord)
  deriving DecidableEq, Repr

/-- Why the model gives an operation no meaning. -/
inductive Refusal where
  /-- An instruction with no meaning in the model. No arm of `exec` answers so. Safe. -/
  | notModelled (mnemonic : String)
  /-- `KEY_DOWN` or `KEY_UP` with a key index of 6 or more, which breaks the host's duty. Raised by `hostKeyDown` and
  `hostKeyUp`, never by `step` (60_exceptions.md R135, 92_eei_decisions.md D15). Safe (log entry 10). -/
  | keyOutOfRange (k : Nat)
  deriving DecidableEq, Repr

/-- The machine right after `RESET` (10_state.md R28). `drawCount` is the model's choice (log entry 4). -/
def State.reset : State where
  regs := Vector.replicate 16 0
  pc := 0
  dt := 0
  fReg := 15
  loopPoint := 0
  keys := Vector.replicate 6 false
  fb := Vector.replicate 64 (Vector.replicate 64 0)
  mem := []
  fault := none
  drawCount := 0

end Sys2Proof.Machine
end

