-- ==== Sys2Proof/Machine/Ops.lean ====
section
/-! DEFINITION. The named operations over memory, registers, the framebuffer and the other state, and the one operation
that takes a fault. Every meaning reads and writes the state through these. -/

namespace Sys2Proof.Machine

/-! ### Memory -/

/-- What an address nothing has written reads as: the reset value of memory (10_state.md R28; log entry 8). -/
def Memory.unlisted : Byte := 0

/-- The canonical form: addresses strictly rising, and no entry that only repeats what an unlisted address reads as. -/
abbrev Memory.wf (m : Memory) : Prop :=
  m.Pairwise (fun c d => c.1 < d.1) ∧ ∀ c ∈ m, c.2 ≠ Memory.unlisted

/-- Every listed address is below `n`. -/
abbrev Memory.below (m : Memory) (n : Nat) : Prop := ∀ c ∈ m, c.1 < n

/-- `mem[a]`. -/
def Memory.read : Memory → Nat → Byte
  | [], _ => Memory.unlisted
  | (k, v) :: rest, a => if k = a then v else Memory.read rest a

/-- `mem[a] <- v`, keeping the canonical form. -/
def Memory.write : Memory → Nat → Byte → Memory
  | [], a, v => if v = Memory.unlisted then [] else [(a, v)]
  | (k, w) :: rest, a, v =>
    if a < k then (if v = Memory.unlisted then (k, w) :: rest else (a, v) :: (k, w) :: rest)
    else if a = k then (if v = Memory.unlisted then rest else (k, v) :: rest)
    else (k, w) :: Memory.write rest a v

/-- `MemWrite`: the bytes at consecutive addresses from `a` (20_memory.md R38). -/
def Memory.writeList (m : Memory) (a : Nat) : List Byte → Memory
  | [] => m
  | b :: bs => (m.write a b).writeList (a + 1) bs

/-- The `n` bytes from address `a` on, the lowest address first. -/
def Memory.readList (m : Memory) (a : Nat) : Nat → List Byte
  | 0 => []
  | n + 1 => m.read a :: m.readList (a + 1) n

/-- `MemRead(a, n)` (20_memory.md R36): the bytes, or none (an addressing fault) where the range leaves memory. The
check precedes every read, and addresses never wrap (R31). -/
def Memory.readRange (g : Geometry) (m : Memory) (a n : Nat) : Option (List Byte) :=
  if a + n ≤ g.memSize then some (m.readList a n) else none

/-! ### The framebuffer -/

/-- A coordinate, reduced modulo 64 (44_blit.md R100). -/
def coord (n : Nat) : Fin 64 := ⟨n % 64, Nat.mod_lt n (by decide)⟩

/-- `fb[x][y]`. -/
def Framebuffer.pixel (fb : Framebuffer) (x y : Fin 64) : Byte := (fb[x.val])[y.val]

/-- `fb[x][y] <- c`. -/
def Framebuffer.setPixel (fb : Framebuffer) (x y : Fin 64) (c : Byte) : Framebuffer :=
  fb.set x.val ((fb[x.val]).set y.val c)

/-- Every pixel 0 (44_blit.md R105). -/
def Framebuffer.blank : Framebuffer := Vector.replicate 64 (Vector.replicate 64 0)

/-! ### State accessors -/

/-- `S[r]`. -/
def State.reg (s : State) (r : RegNo) : Byte := s.regs[r.toNat]

/-- `S[r] <- v`. -/
def State.setReg (s : State) (r : RegNo) (v : Byte) : State := { s with regs := s.regs.set r.toNat v }

/-- `pc <- a`. -/
def State.setPc (s : State) (a : Word) : State := { s with pc := a }

/-- `dt <- v`. -/
def State.setDt (s : State) (v : Word) : State := { s with dt := v }

/-- `f_reg <- v`. -/
def State.setFReg (s : State) (v : Byte) : State := { s with fReg := v }

/-- `loop_point <- v`. -/
def State.setLoopPoint (s : State) (v : Word) : State := { s with loopPoint := v }

/-- `keys[k] <- v`. -/
def State.setKey (s : State) (k : Fin 6) (v : Bool) : State := { s with keys := s.keys.set k.val v }

/-- The framebuffer replaced. -/
def State.setFb (s : State) (fb : Framebuffer) : State := { s with fb := fb }

/-- The memory replaced. -/
def State.setMem (s : State) (m : Memory) : State := { s with mem := m }

/-- The fault latch written. -/
def State.setFault (s : State) (f : Option FaultRecord) : State := { s with fault := f }

/-- The draw counter written. -/
def State.setDrawCount (s : State) (n : Nat) : State := { s with drawCount := n }

/-- `fb[x][y]`. -/
def State.pixel (s : State) (x y : Fin 64) : Byte := s.fb.pixel x y

/-- `mem[a]`. -/
def State.readByte (s : State) (a : Nat) : Byte := s.mem.read a

/-- `keys[k]`. -/
def State.key (s : State) (k : Fin 6) : Bool := s.keys[k.val]

/-! ### Program counter -/

/-- The advance of the fetch: `pc <- (pc + 2) mod 65536` (40_step_dispatch.md R62). -/
def State.advance (s : State) : State := s.setPc (s.pc + 2)

/-- `skip` (42_branch_skip.md R80), on the advanced `pc`, where the condition holds. -/
def State.skipIf (s : State) (c : Bool) : State := if c then s.setPc (s.pc + 2) else s

/-! ### Taking a fault

There is no handler and no return from a fault (60_exceptions.md R125, R130): the latch is set and the core is halted
until `RESET`. -/

/-- Fault entry (60_exceptions.md R125): the record is latched and all other state stays as it is. -/
def State.raise (s : State) (kind : FaultKind) (opcode address : Option Word) : State :=
  s.setFault (some { kind, opcode, address })

/-- A fault of the execute phase of `i`. The state is the one after the fetch's advance, so the instruction stands at
`pc - 2` and its word is that of `i` (60_exceptions.md R126, R127; log entry 6). -/
def State.raiseIn (s : State) (kind : FaultKind) (i : Instr) : State :=
  s.raise kind (some (encode i)) (some (s.pc - 2))

/-- `draw16()` for this execution (41_alu.md R79). -/
def State.nextDraw (s : State) : Nibble := Config.draw s.drawCount

end Sys2Proof.Machine
end

