-- ==== Sys2Proof/Machine/Operands.lean ====
section
/-! DEFINITION. The operand forms of 30_encoding.md R48: literals zero-extended, register values as numbers, the key
index, the decimal digits, and the glyph an index selects (20_memory.md R39). -/

namespace Sys2Proof.Machine

/-- A literal nibble as an 8-bit value. -/
def litByte (n : Nibble) : Byte := n.setWidth 8

/-- A literal nibble as a 16-bit value. -/
def litWord (n : Nibble) : Word := n.setWidth 16

/-- `v mod 16`: the low nibble of a register value (43_special_regs.md R94). -/
def lowNibble (v : Byte) : Nibble := v.extractLsb' 0 4

/-- The high nibble of a glyph byte, `b[7:4]`, the left pixel of its pair (44_blit.md R102). -/
def highNibble (v : Byte) : Nibble := v.extractLsb' 4 4

/-- The target of a jump: `NNN` zero-extended to 16 bits. -/
def jumpTarget (nnn : Addr12) : Word := nnn.setWidth 16

/-- The byte offset `2*X` of `RSK` (42_branch_skip.md R91). -/
def rskOffset (x : Nibble) : Word := 2 * litWord x

/-- `S[r]` as a number, unsigned (00_scope.md R10). -/
def State.regNat (s : State) (r : RegNo) : Nat := (s.reg r).toNat

/-- The key that `S[n]` selects, or none where it is 6 or more (42_branch_skip.md R89): the whole value is compared. -/
def State.keyIndex (s : State) (n : RegNo) : Option (Fin 6) :=
  if h : s.regNat n < 6 then some ⟨s.regNat n, h⟩ else none

/-- The decimal numeral of a register value, no leading zeros, most significant digit first (44_blit.md R107). -/
def decimalDigits (v : Nat) : List Nat :=
  if v ≤ 9 then [v] else if v ≤ 99 then [v / 10, v % 10] else [v / 100, v / 10 % 10, v % 10]

/-- The 32 bytes of glyph `index` of the region at `base`, or none where they leave memory (44_blit.md R101). -/
def State.glyph (g : Geometry) (s : State) (base index : Nat) : Option (List Byte) :=
  s.mem.readRange g (base + index * 32) 32

/-- The glyphs of several indexes, read in order, or none where one of them leaves memory. -/
def State.glyphs (g : Geometry) (s : State) (base : Nat) : List Nat → Option (List (List Byte))
  | [] => some []
  | d :: ds =>
    match s.glyph g base d, s.glyphs g base ds with
    | some b, some bs => some (b :: bs)
    | _, _ => none

end Sys2Proof.Machine
end

