-- ==== Sys2Proof/Machine/Alu.lean ====
section
/-! DEFINITION. 41_alu.md: `LDI`, `ADDI`, `SUBI`, `MOV`, `ADD`, `SUB`, `MUL`, `DIV`, `RND`. Each meaning is the execute
phase, on the state after the fetch's advance. Arithmetic on `Byte` wraps modulo 256 (R78). -/

namespace Sys2Proof.Machine

/-- `S[X] <- NN` (41_alu.md R70). -/
def execLdi (x : RegNo) (nn : Byte) (s : State) : Host.Outcome State Fault Refusal :=
  .next (s.setReg x nn)

/-- `S[X] <- (S[X] + NN) mod 256` (41_alu.md R71). -/
def execAddi (x : RegNo) (nn : Byte) (s : State) : Host.Outcome State Fault Refusal :=
  .next (s.setReg x (s.reg x + nn))

/-- `S[X] <- (S[X] - NN) mod 256` (41_alu.md R72). -/
def execSubi (x : RegNo) (nn : Byte) (s : State) : Host.Outcome State Fault Refusal :=
  .next (s.setReg x (s.reg x - nn))

/-- `S[Y] <- S[Z]` (41_alu.md R73). -/
def execMov (y z : RegNo) (s : State) : Host.Outcome State Fault Refusal :=
  .next (s.setReg y (s.reg z))

/-- `S[Y] <- (S[Y] + S[Z]) mod 256` (41_alu.md R74). -/
def execAdd (y z : RegNo) (s : State) : Host.Outcome State Fault Refusal :=
  .next (s.setReg y (s.reg y + s.reg z))

/-- `S[Y] <- (S[Y] - S[Z]) mod 256` (41_alu.md R75). -/
def execSub (y z : RegNo) (s : State) : Host.Outcome State Fault Refusal :=
  .next (s.setReg y (s.reg y - s.reg z))

/-- `S[Y] <- (S[Y] * S[Z]) mod 256` (41_alu.md R76). -/
def execMul (y z : RegNo) (s : State) : Host.Outcome State Fault Refusal :=
  .next (s.setReg y (s.reg y * s.reg z))

/-- `S[Y] <- S[Y] div S[Z]`, unsigned; a zero divisor raises the arithmetic fault before the write (41_alu.md R77). -/
def execDiv (y z : RegNo) (s : State) : Host.Outcome State Fault Refusal :=
  .next (if s.regNat z = 0 then s.raiseIn .arithmetic (.div y z)
    else s.setReg y (BitVec.ofNat 8 (s.regNat y / s.regNat z)))

/-- `S[N] <- draw16()`; the draw is used up (41_alu.md R79; log entry 4). -/
def execRnd (n : RegNo) (s : State) : Host.Outcome State Fault Refusal :=
  .next ((s.setReg n (litByte s.nextDraw)).setDrawCount (s.drawCount + 1))

end Sys2Proof.Machine
end

