-- ==== Sys2Proof/Machine/Blit.lean ====
section
/-! DEFINITION. 44_blit.md: the two blit modes and `CLS`, `DRW`, `NUM`, `DIG`. The drawing functions take the geometry
as an argument; the meanings give them the machine's. -/

namespace Sys2Proof.Machine

/-- What a glyph nibble writes: a colour, or nothing (the pixel is left). -/
abbrev Ink := Nibble → Option Byte

/-- Opaque-nonzero: a nonzero nibble writes itself (44_blit.md R103). -/
def opaqueInk : Ink := fun p => if p = 0 then none else some (litByte p)

/-- Keyed transparency: the nibble 0xF writes the font colour (44_blit.md R104). -/
def keyedInk (fReg : Byte) : Ink := fun p => if p = 0xF then some fReg else none

/-- Write a pixel where there is ink; both coordinates wrap modulo 64 (44_blit.md R100). -/
def plot (fb : Framebuffer) (x y : Nat) (c : Option Byte) : Framebuffer :=
  match c with
  | none => fb
  | some v => fb.setPixel (coord x) (coord y) v

/-- The two pixels of one glyph byte, the high nibble on the left (44_blit.md R102). -/
def plotByte (ink : Ink) (b : Byte) (x y : Nat) (fb : Framebuffer) : Framebuffer :=
  plot (plot fb x y (ink (highNibble b))) (x + 1) y (ink (lowNibble b))

/-- The glyph byte of column group `i` and row `j`: row-major, four bytes a row (44_blit.md R102). -/
def glyphByte (g : List Byte) (i j : Nat) : Byte := g.getD (4 * j + i) 0

/-- One column group of a glyph: its rows 0 to `n - 1`. -/
def blitGroup (ink : Ink) (g : List Byte) (x y i n : Nat) (fb : Framebuffer) : Framebuffer :=
  (List.range n).foldl (fun fb j => plotByte ink (glyphByte g i j) (x + 2 * i) (y + j) fb) fb

/-- A blit of one glyph at column `x` and row `y`: `for i in 0..3: for j in 0..7` (44_blit.md R103, R104). -/
def blit (ink : Ink) (g : List Byte) (x y : Nat) (fb : Framebuffer) : Framebuffer :=
  (List.range 4).foldl (fun fb i => blitGroup ink g x y i 8 fb) fb

/-- Glyphs side by side, each 8 columns further right than the one before (44_blit.md R107). -/
def blitRow (ink : Ink) (x y : Nat) : List (List Byte) → Framebuffer → Framebuffer
  | [], fb => fb
  | g :: gs, fb => blitRow ink (x + 8) y gs (blit ink g x y fb)

/-- `DRW` on a given geometry (44_blit.md R106). The addressing fault cannot occur under 00_scope.md R7. -/
def State.drawSprite (geo : Geometry) (x : Nibble) (y z : RegNo) (s : State) : State :=
  match s.glyph geo geo.spriteStart x.toNat with
  | none => s.raiseIn .addressing (.drw x y z)
  | some g => s.setFb (blit opaqueInk g (s.regNat y) (s.regNat z) s.fb)

/-- `NUM` on a given geometry (44_blit.md R107). The addressing fault cannot occur under 00_scope.md R7. -/
def State.drawNumber (geo : Geometry) (x y z : RegNo) (s : State) : State :=
  match s.glyphs geo geo.fontStart (decimalDigits (s.regNat x)) with
  | none => s.raiseIn .addressing (.num x y z)
  | some gs => s.setFb (blitRow (keyedInk s.fReg) (s.regNat y) (s.regNat z) gs s.fb)

/-- `DIG` on a given geometry (44_blit.md R108): the addressing fault comes before any pixel is written. -/
def State.drawDigit (geo : Geometry) (x y z : RegNo) (s : State) : State :=
  match s.glyph geo geo.fontStart (s.regNat x) with
  | none => s.raiseIn .addressing (.dig x y z)
  | some g => s.setFb (blit (keyedInk s.fReg) g (s.regNat y) (s.regNat z) s.fb)

/-- Every pixel 0 (44_blit.md R105). -/
def execCls (s : State) : Host.Outcome State Fault Refusal := .next (s.setFb Framebuffer.blank)

/-- Draw sprite `X` at `(S[Y], S[Z])`, opaque-nonzero (44_blit.md R106). -/
def execDrw (x : Nibble) (y z : RegNo) (s : State) : Host.Outcome State Fault Refusal :=
  .next (s.drawSprite Config.geometry x y z)

/-- Draw the decimal digits of `S[X]` from `(S[Y], S[Z])` on, keyed (44_blit.md R107). -/
def execNum (x y z : RegNo) (s : State) : Host.Outcome State Fault Refusal :=
  .next (s.drawNumber Config.geometry x y z)

/-- Draw font glyph `S[X]` at `(S[Y], S[Z])`, keyed (44_blit.md R108). -/
def execDig (x y z : RegNo) (s : State) : Host.Outcome State Fault Refusal :=
  .next (s.drawDigit Config.geometry x y z)

end Sys2Proof.Machine
end

