-- ==== Sys2Proof/Machine/Flags.lean ====
section
/-! DEFINITION. The core has no flags (10_state.md R25): each conditional instruction computes its own condition from
two register values. These are the conditions of 42_branch_skip.md, on unsigned values. -/

namespace Sys2Proof.Machine

/-- `S[Y] > S[Z]`, unsigned (42_branch_skip.md R84). -/
def condGreater (y z : Byte) : Bool := decide (z.toNat < y.toNat)

/-- `S[Y] == S[Z]` (R82). -/
def condEqual (y z : Byte) : Bool := decide (y.toNat = z.toNat)

/-- `ovA`, "A-before-B overlap" (R85): the sum wraps at 8 bits and both comparisons are strict. -/
def ovA (y z : Byte) : Bool := decide (y.toNat < z.toNat) && decide (z.toNat < (y.toNat + 8) % 256)

/-- `t(z) = (z + 8) mod 64` (R85). -/
def ovT (z : Byte) : Nat := (z.toNat + 8) % 64

/-- `ovB`, "B-before-A overlap" (R85). -/
def ovB (y z : Byte) : Bool := decide (y.toNat < ovT z) && decide (ovT z < (y.toNat + 8) % 256)

/-- The combined collision test (R88). -/
def condCollide (y z : Byte) : Bool := ovA y z || ovB y z || condEqual y z

end Sys2Proof.Machine
end

