-- ==== Sys2Proof/Machine/Branch.lean ====
section
/-! DEFINITION. `NOP` (40_step_dispatch.md R65) and 42_branch_skip.md: `JP`, the compare skips, the key skips, `RSK`.
Each meaning is the execute phase, on the state after the fetch's advance. -/

namespace Sys2Proof.Machine

/-- No effect beyond the advance (40_step_dispatch.md R65). -/
def execNop (s : State) : Host.Outcome State Fault Refusal := .next s

/-- `pc <- NNN` (42_branch_skip.md R81). -/
def execJp (nnn : Addr12) (s : State) : Host.Outcome State Fault Refusal :=
  .next (s.setPc (jumpTarget nnn))

/-- Skip if `S[Y] == S[Z]` (42_branch_skip.md R82). -/
def execSe (y z : RegNo) (s : State) : Host.Outcome State Fault Refusal :=
  .next (s.skipIf (condEqual (s.reg y) (s.reg z)))

/-- Skip if `S[Y] != S[Z]` (42_branch_skip.md R83). -/
def execSne (y z : RegNo) (s : State) : Host.Outcome State Fault Refusal :=
  .next (s.skipIf (!condEqual (s.reg y) (s.reg z)))

/-- Skip if `S[Y] > S[Z]` (42_branch_skip.md R84). -/
def execSgt (y z : RegNo) (s : State) : Host.Outcome State Fault Refusal :=
  .next (s.skipIf (condGreater (s.reg y) (s.reg z)))

/-- Skip if `ovA(S[Y], S[Z])` (42_branch_skip.md R86). -/
def execSova (y z : RegNo) (s : State) : Host.Outcome State Fault Refusal :=
  .next (s.skipIf (ovA (s.reg y) (s.reg z)))

/-- Skip if `ovB(S[Y], S[Z])` (42_branch_skip.md R87). -/
def execSovb (y z : RegNo) (s : State) : Host.Outcome State Fault Refusal :=
  .next (s.skipIf (ovB (s.reg y) (s.reg z)))

/-- Skip if either overlap holds or the values are equal (42_branch_skip.md R88). -/
def execScol (y z : RegNo) (s : State) : Host.Outcome State Fault Refusal :=
  .next (s.skipIf (condCollide (s.reg y) (s.reg z)))

/-- A key skip: the fault on a bad index comes before the latch is read (42_branch_skip.md R89). -/
def State.keySkip (s : State) (i : Instr) (n : RegNo) (pressed : Bool) : State :=
  match s.keyIndex n with
  | none => s.raiseIn .invalidKeyIndex i
  | some k => s.skipIf (s.key k == pressed)

/-- Skip if key `S[N]` is pressed (42_branch_skip.md R89). -/
def execSkp (n : RegNo) (s : State) : Host.Outcome State Fault Refusal :=
  .next (s.keySkip (.skp n) n true)

/-- Skip if key `S[N]` is not pressed (42_branch_skip.md R90). -/
def execSknp (n : RegNo) (s : State) : Host.Outcome State Fault Refusal :=
  .next (s.keySkip (.sknp n) n false)

/-- If `S[Y] != S[Z]`: `pc <- (pc + 2*X) mod 65536` (42_branch_skip.md R91). -/
def execRsk (x : Nibble) (y z : RegNo) (s : State) : Host.Outcome State Fault Refusal :=
  .next (if condEqual (s.reg y) (s.reg z) then s else s.setPc (s.pc + rskOffset x))

end Sys2Proof.Machine
end

