-- ==== Sys2Proof/Machine/Special.lean ====
section
/-! DEFINITION. 43_special_regs.md: `SETF`, `SETFR`, `LPR`, `LPI`. -/

namespace Sys2Proof.Machine

/-- `f_reg <- N`, a literal (43_special_regs.md R93). -/
def execSetf (n : Nibble) (s : State) : Host.Outcome State Fault Refusal :=
  .next (s.setFReg (litByte n))

/-- `f_reg <- S[N] mod 16` (43_special_regs.md R94). -/
def execSetfr (n : RegNo) (s : State) : Host.Outcome State Fault Refusal :=
  .next (s.setFReg (litByte (lowNibble (s.reg n))))

/-- `loop_point <- S[N] mod 16` (43_special_regs.md R95). -/
def execLpr (n : RegNo) (s : State) : Host.Outcome State Fault Refusal :=
  .next (s.setLoopPoint (litWord (lowNibble (s.reg n))))

/-- `loop_point <- N`, a literal (43_special_regs.md R96). -/
def execLpi (n : Nibble) (s : State) : Host.Outcome State Fault Refusal :=
  .next (s.setLoopPoint (litWord n))

end Sys2Proof.Machine
end

