-- ==== Sys2Proof/Machine/Dispatch.lean ====
section
/-! DEFINITION. The dispatch: one meaning for each instruction. -/

namespace Sys2Proof.Machine

/-- The execute phase of an instruction, on the state after the fetch's advance (40_step_dispatch.md R64). -/
def exec (i : Instr) (s : State) : Host.Outcome State Fault Refusal :=
  match i with
  | .nop => Sys2Proof.Machine.execNop s
  | .cls => Sys2Proof.Machine.execCls s
  | .jp nnn => Sys2Proof.Machine.execJp nnn s
  | .ldi x nn => Sys2Proof.Machine.execLdi x nn s
  | .addi x nn => Sys2Proof.Machine.execAddi x nn s
  | .subi x nn => Sys2Proof.Machine.execSubi x nn s
  | .mov y z => Sys2Proof.Machine.execMov y z s
  | .add y z => Sys2Proof.Machine.execAdd y z s
  | .sub y z => Sys2Proof.Machine.execSub y z s
  | .mul y z => Sys2Proof.Machine.execMul y z s
  | .div y z => Sys2Proof.Machine.execDiv y z s
  | .se y z => Sys2Proof.Machine.execSe y z s
  | .sne y z => Sys2Proof.Machine.execSne y z s
  | .sgt y z => Sys2Proof.Machine.execSgt y z s
  | .sova y z => Sys2Proof.Machine.execSova y z s
  | .sovb y z => Sys2Proof.Machine.execSovb y z s
  | .scol y z => Sys2Proof.Machine.execScol y z s
  | .setf n => Sys2Proof.Machine.execSetf n s
  | .setfr n => Sys2Proof.Machine.execSetfr n s
  | .rnd n => Sys2Proof.Machine.execRnd n s
  | .lpr n => Sys2Proof.Machine.execLpr n s
  | .lpi n => Sys2Proof.Machine.execLpi n s
  | .skp n => Sys2Proof.Machine.execSkp n s
  | .sknp n => Sys2Proof.Machine.execSknp n s
  | .rsk x y z => Sys2Proof.Machine.execRsk x y z s
  | .drw x y z => Sys2Proof.Machine.execDrw x y z s
  | .num x y z => Sys2Proof.Machine.execNum x y z s
  | .dig x y z => Sys2Proof.Machine.execDig x y z s

end Sys2Proof.Machine
end

