-- ==== Sys2Proof/Machine/Fetch.lean ====
section
/-! DEFINITION. The fetch and the two faults that come before the execute phase (40_step_dispatch.md R60 to R63), and
what a `TICK` returns (R66). -/

namespace Sys2Proof.Machine

/-- The fetch on a given geometry: the big-endian word at `pc`, or none where `pc + 1` is no memory index. `pc` may be
odd and may lie in any region (40_step_dispatch.md R61, 20_memory.md R33, R35). -/
def State.fetchIn (g : Geometry) (s : State) : Option Word :=
  match s.mem.readRange g s.pc.toNat 2 with
  | some [hi, lo] => some (wordOfBytes hi lo)
  | _ => none

/-- The fetch of the machine. -/
def State.fetch (s : State) : Option Word := s.fetchIn Config.geometry

/-- A fetch that leaves memory: the fault is latched and `pc` is not advanced (60_exceptions.md R121, R126). -/
def State.fetchFault (s : State) : State := s.raise .addressing none (some s.pc)

/-- A word that matches no instruction: the fault is latched after the advance (60_exceptions.md R122, R126). -/
def State.illegalOpcode (s : State) (op : Word) : State :=
  s.advance.raise .unimplementedOpcode (some op) (some s.pc)

/-- What a `TICK` that left state `t` returns: `Ok(pc)`, or the record of the fault (40_step_dispatch.md R66). -/
def State.tickReturn (t : State) : Except FaultRecord Word :=
  match t.fault with
  | none => .ok t.pc
  | some r => .error r

/-- The address `withFetchWord` stores an instruction at: `pc`, or 0 where no instruction fits there. -/
def State.fetchSlot (s : State) : Word := if s.pc.toNat + 1 < Config.geometry.memSize then s.pc else 0

/-- The word placed where the next fetch reads it, in a core that is not halted: the effect of `LOAD`, and of `SET_PC`
and a cleared fault latch only where the fetch needs them (log entry 11). -/
def State.placeWord (s : State) (op : Word) : State :=
  ((s.setPc s.fetchSlot).setFault none).setMem (s.mem.writeList s.fetchSlot.toNat [highByte op, lowByte op])

end Sys2Proof.Machine
end

