-- ==== Sys2Proof/Machine/Step.lean ====
section
/-! DEFINITION. One step of the machine is one `TICK` (40_step_dispatch.md R60). -/

namespace Sys2Proof.Machine

/-- `TICK`: fetch, advance, decode, execute. A halted core has no step (60_exceptions.md R128). -/
def step (s : State) : Host.Outcome State Fault Refusal :=
  match s.fault with
  | some r => .fault (.halted r)
  | none =>
    match s.fetch with
    | none => .next s.fetchFault
    | some op =>
      match decode op with
      | none => .next (s.illegalOpcode op)
      | some i => exec i s.advance

/-- `s` with the instruction word that the opcode table numbers `w` where `step` fetches next. -/
def State.withFetchWord (s : State) (nbits w : Nat) : State := s.placeWord (tableWord nbits w)

end Sys2Proof.Machine
end

