-- ==== Sys2Proof/Machine/HostOps.lean ====
section
/-! DEFINITION. The host interface of 70_reset_and_hazards.md R152: the eight operations, each atomic, in one total
order (20_memory.md R41). -/

namespace Sys2Proof.Machine

/-- The operations of the host. -/
inductive HostOp where
  /-- `RESET` (70_reset_and_hazards.md R150). -/
  | reset
  /-- `LOAD(bytes, start, stop)` into `[start, stop)` (20_memory.md R38). -/
  | load (bytes : List Byte) (start stop : Nat)
  /-- `SET_PC(addr)` (70_reset_and_hazards.md R153). -/
  | setPc (addr : Word)
  /-- `TICK` (40_step_dispatch.md R60). -/
  | tick
  /-- `TICK_DT` (60_exceptions.md R133). -/
  | tickDt
  /-- `KEY_DOWN(k)`, which requires `k <= 5` (60_exceptions.md R135). -/
  | keyDown (k : Nat)
  /-- `KEY_UP(k)`, which requires `k <= 5` (60_exceptions.md R136). -/
  | keyUp (k : Nat)
  /-- `GET_SCREEN` (60_exceptions.md R137). -/
  | getScreen
  deriving DecidableEq, Repr

/-- The host's duty on the arguments of an operation: a key index is below 6 (70_reset_and_hazards.md R160). -/
def HostOp.wellFormed : HostOp → Bool
  | .keyDown k => decide (k < 6)
  | .keyUp k => decide (k < 6)
  | _ => true

/-- A state-changing operation other than `RESET`: refused while the core is halted (60_exceptions.md R128). -/
def State.unlessHalted (s : State) (o : Host.Outcome State Fault Refusal) : Host.Outcome State Fault Refusal :=
  match s.fault with
  | some r => .fault (.halted r)
  | none => o

/-- `RESET`: every piece of state of the core to its reset value; the random source goes on (60_exceptions.md R138). -/
def hostReset (s : State) : Host.Outcome State Fault Refusal :=
  .next (State.reset.setDrawCount s.drawCount)

/-- Is the range of a `LOAD` one it accepts (20_memory.md R38)? -/
def loadFits (g : Geometry) (bytes : List Byte) (start stop : Nat) : Bool :=
  decide (start ≤ stop) && decide (stop - start = bytes.length) && decide (stop ≤ g.memSize)

/-- The effect of a `LOAD` on a core that is not halted: the copy, or the addressing fault and no byte changed. -/
def State.loadIn (g : Geometry) (s : State) (bytes : List Byte) (start stop : Nat) : State :=
  if loadFits g bytes start stop then s.setMem (s.mem.writeList start bytes) else s.raise .addressing none none

/-- `LOAD` (20_memory.md R38). -/
def hostLoad (bytes : List Byte) (start stop : Nat) (s : State) : Host.Outcome State Fault Refusal :=
  s.unlessHalted (.next (s.loadIn Config.geometry bytes start stop))

/-- `SET_PC`: no check of any kind (70_reset_and_hazards.md R153). -/
def hostSetPc (addr : Word) (s : State) : Host.Outcome State Fault Refusal :=
  s.unlessHalted (.next (s.setPc addr))

/-- `TICK_DT`: `dt` counts up and wraps (60_exceptions.md R133). -/
def hostTickDt (s : State) : Host.Outcome State Fault Refusal :=
  s.unlessHalted (.next (s.setDt (s.dt + 1)))

/-- A key latch written; an index of 6 or more has no move (60_exceptions.md R135, R136; log entry 10). -/
def State.writeKey (s : State) (k : Nat) (v : Bool) : Host.Outcome State Fault Refusal :=
  if h : k < 6 then s.unlessHalted (.next (s.setKey ⟨k, h⟩ v)) else .refused (.keyOutOfRange k)

/-- `KEY_DOWN` (60_exceptions.md R135). -/
def hostKeyDown (k : Nat) (s : State) : Host.Outcome State Fault Refusal := s.writeKey k true

/-- `KEY_UP` (60_exceptions.md R136). -/
def hostKeyUp (k : Nat) (s : State) : Host.Outcome State Fault Refusal := s.writeKey k false

/-- `GET_SCREEN` changes no state and is allowed while halted (60_exceptions.md R137). -/
def hostGetScreen (s : State) : Host.Outcome State Fault Refusal := .next s

/-- One operation of the host. -/
def hostOp (op : HostOp) (s : State) : Host.Outcome State Fault Refusal :=
  match op with
  | .reset => hostReset s
  | .load bytes start stop => hostLoad bytes start stop s
  | .setPc addr => hostSetPc addr s
  | .tick => step s
  | .tickDt => hostTickDt s
  | .keyDown k => hostKeyDown k s
  | .keyUp k => hostKeyUp k s
  | .getScreen => hostGetScreen s

/-- The answer of an operation to the host (70_reset_and_hazards.md R152). -/
inductive HostResult where
  /-- Nothing. -/
  | done
  /-- `Ok(pc)`, from `TICK`. -/
  | pc (a : Word)
  /-- The record of a fault, from `TICK` or `LOAD`. -/
  | failed (r : FaultRecord)
  /-- The pixels, from `GET_SCREEN`. -/
  | screen (fb : Framebuffer)
  deriving DecidableEq, Repr

/-- What the operation returns, from the state it left (40_step_dispatch.md R66, 60_exceptions.md R125, R137). -/
def HostOp.result (op : HostOp) (t : State) : HostResult :=
  match op with
  | .tick => match t.tickReturn with
    | .ok a => .pc a
    | .error r => .failed r
  | .load _ _ _ => match t.fault with
    | some r => .failed r
    | none => .done
  | .getScreen => .screen t.fb
  | _ => .done

/-- One operation as the host sees it: the state it leaves and its answer. An operation refused because the core is
halted changes nothing and answers the stored record (60_exceptions.md R128), so it does not end the host's run; only
a broken duty has no move (70_reset_and_hazards.md R160). -/
def hostCall (op : HostOp) (s : State) : Host.Outcome (State × HostResult) Fault Refusal :=
  match hostOp op s with
  | .next t => .next (t, op.result t)
  | .fault (.halted r) => .next (s, .failed r)
  | .refused r => .refused r

/-- A finite sequence of host operations, in any order and number: a run, and the state it ends in
(70_reset_and_hazards.md R156, R160). It goes on past a fault, since the host may then still look, reset and load; a
run that ends in a halted state is no success (60_exceptions.md R128; `State.Running` tells). -/
def hostRun : List HostOp → State → Host.Outcome State Fault Refusal
  | [], s => .next s
  | op :: ops, s =>
    match hostCall op s with
    | .next (t, _) => hostRun ops t
    | .fault r => .fault r
    | .refused r => .refused r

end Sys2Proof.Machine
end

