-- ==== Sys2Proof/WellFormed.lean ====
section
/-! DEFINITION. The checks the spec makes of data before the machine runs on it: the constraints on the memory
parameters (00_scope.md R7), and which words are instruction words (30_encoding.md R50). An `Instr` needs no check of
its own: each operand has exactly the width of its field, and every value of every field is legal (R48; log entry 7). -/

namespace Sys2Proof

/-- The constraints of 00_scope.md R7 on the memory parameters. -/
def Geometry.wellFormed (g : Geometry) : Bool :=
  decide (0 < g.spriteStart) && decide (g.spriteStart ≤ g.fontStart) && decide (g.fontStart + 10 * 32 ≤ g.memSize) &&
    decide (g.spriteStart + 16 * 32 ≤ g.memSize) && decide (g.memSize ≤ 65536)

/-- One row of the opcode map: a word `op` selects the row when `op AND mask = pattern` (30_encoding.md R50). -/
structure OpcodeRow where
  pattern : Word
  mask    : Word
  deriving DecidableEq, Repr

/-- Does the word select the row? -/
def OpcodeRow.selects (r : OpcodeRow) (op : Word) : Bool := op &&& r.mask == r.pattern

/-- Rows 1 to 6 and 25 to 28 of 30_encoding.md R50: the words with no sub-opcode. -/
def opcodeRowsPlain : List OpcodeRow :=
  [⟨0x0000, 0xFFFF⟩, ⟨0x000C, 0xFFFF⟩, ⟨0x1000, 0xF000⟩, ⟨0x2000, 0xF000⟩, ⟨0x3000, 0xF000⟩, ⟨0x4000, 0xF000⟩,
    ⟨0xA000, 0xF000⟩, ⟨0xD000, 0xF000⟩, ⟨0xE000, 0xF000⟩, ⟨0xF000, 0xF000⟩]

/-- Rows 7 to 17 of 30_encoding.md R50: family 5. -/
def opcodeRowsRegister : List OpcodeRow :=
  [⟨0x5000, 0xFF00⟩, ⟨0x5100, 0xFF00⟩, ⟨0x5200, 0xFF00⟩, ⟨0x5300, 0xFF00⟩, ⟨0x5400, 0xFF00⟩, ⟨0x5500, 0xFF00⟩,
    ⟨0x5600, 0xFF00⟩, ⟨0x5700, 0xFF00⟩, ⟨0x5800, 0xFF00⟩, ⟨0x5900, 0xFF00⟩, ⟨0x5A00, 0xFF00⟩]

/-- Rows 18 to 24 of 30_encoding.md R50: format `N`, as rule R51 reads the seven five-character patterns. -/
def opcodeRowsNibble : List OpcodeRow :=
  [⟨0x6000, 0xFFF0⟩, ⟨0x6010, 0xFFF0⟩, ⟨0x7000, 0xFFF0⟩, ⟨0x7010, 0xFFF0⟩, ⟨0x8000, 0xFFF0⟩, ⟨0x9000, 0xFFF0⟩,
    ⟨0x9010, 0xFFF0⟩]

/-- The 28 rows of the opcode map. -/
def opcodeRows : List OpcodeRow := opcodeRowsPlain ++ opcodeRowsRegister ++ opcodeRowsNibble

/-- Is the word an instruction word, that is, does some row of the opcode map select it (30_encoding.md R52)? -/
def legalWord (op : Word) : Bool := opcodeRows.any fun r => r.selects op

end Sys2Proof
end

