-- ==== Sys2Proof/Safety.lean ====
section
/-! DEFINITION. The terms claims are stated in: the parts of the state and what leaves them alone, the invariant of the
machine, and what software must ensure (70_reset_and_hazards.md R155). -/

namespace Sys2Proof.Machine

/-- A part of the state: one register, one pixel, one byte of memory, and so on (10_state.md R13). -/
inductive Part where
  | reg (r : RegNo)
  | pc
  | dt
  | fReg
  | loopPoint
  | key (k : Fin 6)
  | pixel (x y : Fin 64)
  | byte (a : Nat)
  | fault
  | drawCount
  deriving DecidableEq, Repr

/-- The part has the same value in both states. -/
def Part.Same (p : Part) (s t : State) : Prop :=
  match p with
  | .reg r => t.reg r = s.reg r
  | .pc => t.pc = s.pc
  | .dt => t.dt = s.dt
  | .fReg => t.fReg = s.fReg
  | .loopPoint => t.loopPoint = s.loopPoint
  | .key k => t.key k = s.key k
  | .pixel x y => t.pixel x y = s.pixel x y
  | .byte a => t.readByte a = s.readByte a
  | .fault => t.fault = s.fault
  | .drawCount => t.drawCount = s.drawCount

/-- Every part of the state outside `changed` has the same value in both states. -/
def OnlyChanges (changed : Part → Prop) (s t : State) : Prop := ∀ p, ¬ changed p → p.Same s t

/-- `f_reg`, `loop_point` and every pixel hold a value 0..15 (10_state.md R19, R20, R22). -/
def State.NibblesOk (s : State) : Prop :=
  s.fReg.toNat < 16 ∧ s.loopPoint.toNat < 16 ∧ ∀ x y, (s.pixel x y).toNat < 16

/-- Memory is in canonical form and lists no address at or above `MEM_SIZE` (10_state.md R23). -/
def State.MemOk (s : State) : Prop := s.mem.wf ∧ s.mem.below Config.geometry.memSize

/-- The invariant of the machine. -/
def State.Inv (s : State) : Prop := s.NibblesOk ∧ s.MemOk

/-- The core is not halted (60_exceptions.md R128). -/
def State.Running (s : State) : Prop := s.fault = none

/-- The next instruction fits in memory: its fetch does not fault (40_step_dispatch.md R61). -/
def State.CanFetch (s : State) : Prop := s.pc.toNat + 1 < Config.geometry.memSize

/-- The instruction at `pc` is `i`: its two bytes stand at `pc` and `pc + 1`, the high byte first (20_memory.md R33). -/
def State.At (s : State) (i : Instr) : Prop :=
  s.CanFetch ∧ decode (wordOfBytes (s.readByte s.pc.toNat) (s.readByte (s.pc.toNat + 1))) = some i

/-- What software must ensure at every fetch (70_reset_and_hazards.md R155, item 1): an even `pc` in the program
region. -/
def State.PcDisciplined (s : State) : Prop :=
  s.pc.toNat % 2 = 0 ∧ s.pc.toNat < Config.geometry.spriteStart

/-- How far the coordinate `p` lies beyond the position `o`, going right (or down) around the edge (44_blit.md R100). -/
def torusOffset (p : Fin 64) (o : Nat) : Nat := (p.val + 64 - o % 64) % 64

/-- Pixel (column `c`, row `j`) of the glyph whose bytes are `g`, as a number: the high nibble of byte `4*j + c div 2`
where `c` is even, the low nibble where it is odd (44_blit.md R102). -/
def glyphPixel (g : Nat → Byte) (c j : Nat) : Nat :=
  let b := (g (4 * j + c / 2)).toNat
  if c % 2 = 0 then b / 16 else b % 16

/-- The bytes from address `a` on, as a glyph (20_memory.md R39). -/
def State.glyphBytes (s : State) (a : Nat) : Nat → Byte := fun b => s.readByte (a + b)

end Sys2Proof.Machine
end

