-- ==== Sys2Proof/Certificates/Slice0/Obligations.lean ====
section
/-! DEFINITION. The statements for the provers, from the numbered rules of spec/. Each `def Obligations.<Name> : Prop`
states and proves nothing. `exec` is the execute phase, so in a statement about `exec i s` the `pc` of `s` is the
advanced one (40_step_dispatch.md R64). -/

open Sys2Proof Sys2Proof.Machine

namespace Sys2Proof.Claims

/-- The number `n`, read as a word, is the instruction `i`. -/
def Encodes (i : Instr) (n : Nat) : Prop := n < 65536 ∧ decode (BitVec.ofNat 16 n) = some i

/-- Every part of the state but the listed ones is the same in both states. -/
def OnlyParts (ps : List Part) (s t : State) : Prop := OnlyChanges (fun p => p ∈ ps) s t

/-- Every part of the state but the framebuffer is the same in both states. -/
def OnlyPixels (s t : State) : Prop := OnlyChanges (fun p => ∃ x y, p = .pixel x y) s t

/-- Where `pc` stands after a skip on the condition `c` (42_branch_skip.md R80). -/
def SkipsIf (c : Prop) (s t : State) : Prop :=
  (c → t.pc.toNat = (s.pc.toNat + 2) % 65536) ∧ (¬ c → t.pc = s.pc) ∧ OnlyParts [.pc] s t

/-- The number of an instruction's word in the opcode map of 30_encoding.md R50. -/
def tableNumber : Instr → Nat
  | .nop => 0x0000
  | .cls => 0x000C
  | .jp nnn => 0x1000 + nnn.toNat
  | .ldi x nn => 0x2000 + 256 * x.toNat + nn.toNat
  | .addi x nn => 0x3000 + 256 * x.toNat + nn.toNat
  | .subi x nn => 0x4000 + 256 * x.toNat + nn.toNat
  | .mov y z => 0x5000 + 16 * y.toNat + z.toNat
  | .add y z => 0x5100 + 16 * y.toNat + z.toNat
  | .sub y z => 0x5200 + 16 * y.toNat + z.toNat
  | .mul y z => 0x5300 + 16 * y.toNat + z.toNat
  | .div y z => 0x5400 + 16 * y.toNat + z.toNat
  | .se y z => 0x5500 + 16 * y.toNat + z.toNat
  | .sne y z => 0x5600 + 16 * y.toNat + z.toNat
  | .sgt y z => 0x5700 + 16 * y.toNat + z.toNat
  | .sova y z => 0x5800 + 16 * y.toNat + z.toNat
  | .sovb y z => 0x5900 + 16 * y.toNat + z.toNat
  | .scol y z => 0x5A00 + 16 * y.toNat + z.toNat
  | .setf n => 0x6000 + n.toNat
  | .setfr n => 0x6010 + n.toNat
  | .rnd n => 0x7000 + n.toNat
  | .lpr n => 0x7010 + n.toNat
  | .lpi n => 0x8000 + n.toNat
  | .skp n => 0x9000 + n.toNat
  | .sknp n => 0x9010 + n.toNat
  | .rsk x y z => 0xA000 + 256 * x.toNat + 16 * y.toNat + z.toNat
  | .drw x y z => 0xD000 + 256 * x.toNat + 16 * y.toNat + z.toNat
  | .num x y z => 0xE000 + 256 * x.toNat + 16 * y.toNat + z.toNat
  | .dig x y z => 0xF000 + 256 * x.toNat + 16 * y.toNat + z.toNat

/-- The word at `pc`, the byte at the lower address in the high half. -/
def wordAtPc (s : State) : Word := wordOfBytes (s.readByte s.pc.toNat) (s.readByte (s.pc.toNat + 1))

/-- `pc` after the execute phase of `i`, from `a2`, the advanced one (10_state.md R17). -/
def pcAfterExecute (s : State) (a2 : Nat) : Instr → Nat
  | .jp nnn => nnn.toNat
  | .se y z => if s.regNat y = s.regNat z then (a2 + 2) % 65536 else a2
  | .sne y z => if s.regNat y = s.regNat z then a2 else (a2 + 2) % 65536
  | .sgt y z => if s.regNat z < s.regNat y then (a2 + 2) % 65536 else a2
  | .sova y z => if ovA (s.reg y) (s.reg z) then (a2 + 2) % 65536 else a2
  | .sovb y z => if ovB (s.reg y) (s.reg z) then (a2 + 2) % 65536 else a2
  | .scol y z => if ovA (s.reg y) (s.reg z) ∨ ovB (s.reg y) (s.reg z) ∨ s.regNat y = s.regNat z then (a2 + 2) % 65536 else a2
  | .skp n => if h : s.regNat n < 6 then (if s.key ⟨s.regNat n, h⟩ then (a2 + 2) % 65536 else a2) else a2
  | .sknp n => if h : s.regNat n < 6 then (if s.key ⟨s.regNat n, h⟩ then a2 else (a2 + 2) % 65536) else a2
  | .rsk x y z => if s.regNat y = s.regNat z then a2 else (a2 + 2 * x.toNat) % 65536
  | _ => a2

/-- `pc` after a `TICK` of a core that is not halted (10_state.md R17). -/
def pcAfterTick (s : State) : Nat :=
  if s.pc.toNat + 1 < Config.geometry.memSize then
    match decode (wordAtPc s) with
    | none => (s.pc.toNat + 2) % 65536
    | some i => pcAfterExecute s ((s.pc.toNat + 2) % 65536) i
  else s.pc.toNat

/-- `pc` after a host operation that has its effect (10_state.md R17). -/
def pcAfter (s : State) : HostOp → Nat
  | .reset => 0
  | .setPc a => a.toNat
  | .tick => pcAfterTick s
  | _ => s.pc.toNat

/-- The fault the execute phase of an instruction raises, or none (60_exceptions.md R129). -/
def executeFault (s : State) : Instr → Option FaultKind
  | .div _ z => if s.regNat z = 0 then some .arithmetic else none
  | .skp n => if 6 ≤ s.regNat n then some .invalidKeyIndex else none
  | .sknp n => if 6 ≤ s.regNat n then some .invalidKeyIndex else none
  | .dig x _ _ =>
    if Config.geometry.memSize < Config.geometry.fontStart + s.regNat x * 32 + 32 then some .addressing else none
  | _ => none

/-- The fault a `TICK` raises, or none: the fetch is checked first, then the word, then the instruction's one
condition (60_exceptions.md R129). -/
def tickFault (s : State) : Option FaultRecord :=
  if s.pc.toNat + 1 < Config.geometry.memSize then
    match decode (wordAtPc s) with
    | none => some ⟨.unimplementedOpcode, some (wordAtPc s), some s.pc⟩
    | some i => (executeFault s i).map fun k => ⟨k, some (wordAtPc s), some s.pc⟩
  else some ⟨.addressing, none, some s.pc⟩

/-- The outcome with its next state changed by `f`. -/
def mapNext (f : State → State) : Host.Outcome State Fault Refusal → Host.Outcome State Fault Refusal
  | .next t => .next (f t)
  | .fault r => .fault r
  | .refused r => .refused r

/-- The drawn pixel: where `(px, py)` lies in the 8 by 8 window at `(x, y)`, the glyph pixel there decides by `ink`
whether it is overwritten and with what; every other pixel is as it was (44_blit.md R100, R102). -/
def Drawn (ink : Nat → Option Nat) (g : Nat → Byte) (x y : Nat) (s t : State) : Prop :=
  ∀ px py : Fin 64, (t.pixel px py).toNat =
    if torusOffset px x < 8 ∧ torusOffset py y < 8
    then (ink (glyphPixel g (torusOffset px x) (torusOffset py y))).getD (s.pixel px py).toNat
    else (s.pixel px py).toNat

/-- A nonzero glyph pixel is written as it is; 0 writes nothing (44_blit.md R103). -/
def opaqueRule (p : Nat) : Option Nat := if p = 0 then none else some p

/-- The glyph pixel 15 writes `f_reg`; any other writes nothing (44_blit.md R104). -/
def keyedRule (fReg : Nat) (p : Nat) : Option Nat := if p = 15 then some fReg else none

/-- How many digits the decimal numeral of `v` has (44_blit.md R107). -/
def numeralLength (v : Nat) : Nat := if v ≤ 9 then 1 else if v ≤ 99 then 2 else 3

/-- Digit `k` of the decimal numeral of `v`, the most significant first. -/
def numeralDigit (v k : Nat) : Nat := v / 10 ^ (numeralLength v - 1 - k) % 10

end Sys2Proof.Claims

open Sys2Proof.Claims

/-! ### Encoding -/

/-- Under either reading of the seven five-character patterns, decoding an instruction's word gives the instruction. -/
def Obligations.DecodeOfEncodeIsTheInstruction : Prop :=
  ∀ l i, decodeWith l (encodeWith l i) = some i

/-- Under either reading, a word that decodes is the word of the instruction it decodes to. -/
def Obligations.EncodeOfDecodedIsTheWord : Prop :=
  ∀ l w i, decodeWith l w = some i → encodeWith l i = w

/-- The decoder reads an instruction from exactly the words that the opcode map selects. That 601N, 701N and 901N are
among them, and 610N, 710N and 910N are not, is the choice of layout: the spec's own decision D1, log entry 3. -/
def Obligations.DecoderAcceptsExactlyTheTable : Prop :=
  ∀ w : Word, (decode w).isSome = true ↔ legalWord w = true

/-- No word selects two rows of the opcode map. The rows of `SETFR`, `LPR` and `SKNP` are those of the layout that is
the spec's own decision D1, log entry 3. -/
def Obligations.OpcodeRowsAreDisjoint : Prop :=
  ∀ (w : Word) (r q : OpcodeRow), r ∈ opcodeRows → q ∈ opcodeRows → r.selects w = true → q.selects w = true → r = q

/-- A word decodes to an instruction exactly where its number is the instruction's in the opcode map. The numbers
0x6010, 0x7010 and 0x9010 are the choice of layout: the spec's own decision D1, log entry 3. -/
def Obligations.DecodedWordHasTheTablesNumber : Prop :=
  ∀ (w : Word) (i : Instr), decode w = some i ↔ w.toNat = tableNumber i

/-- Words written out from the table decode to the instructions they stand for; words outside it do not decode. The
clauses on 0x6014, 0x9013 and 0x6100 are the choice of layout: the spec's own decision D1, log entry 3. -/
def Obligations.SampleWordsDecode : Prop :=
  decode 0x1ABC = some (.jp 0xABC) ∧ decode 0x2AFF = some (.ldi 10 255) ∧ decode 0x5412 = some (.div 1 2) ∧
    decode 0x6014 = some (.setfr 4) ∧ decode 0x9013 = some (.sknp 3) ∧ decode 0xA312 = some (.rsk 3 1 2) ∧
    decode 0xF344 = some (.dig 3 4 4) ∧ decode 0x0001 = none ∧ decode 0x6100 = none ∧ decode 0xC123 = none

/-! ### The step -/

/-- A fetch inside memory, at an even or odd address, is big-endian, on every geometry. That an odd address, or one in a
ROM region, is fetched like any other is the spec's own decision D11, log entry 17. -/
def Obligations.FetchIsBigEndian : Prop :=
  ∀ (g : Geometry) (s : State), s.pc.toNat + 1 < g.memSize → ∃ op, s.fetchIn g = some op ∧
    op.toNat = (s.readByte s.pc.toNat).toNat * 256 + (s.readByte (s.pc.toNat + 1)).toNat ∧
    (fieldD1 op).toNat = (s.readByte s.pc.toNat).toNat / 16 ∧ (fieldD2 op).toNat = (s.readByte s.pc.toNat).toNat % 16 ∧
    (fieldD3 op).toNat = (s.readByte (s.pc.toNat + 1)).toNat / 16 ∧
    (fieldD4 op).toNat = (s.readByte (s.pc.toNat + 1)).toNat % 16

/-- A fetch that leaves memory latches the addressing fault and does not advance `pc`. These are the spec's own
decisions: that addresses do not wrap D12 (log entry 17), that `pc` is not advanced D9 and the record's fields D10
(log entry 16), the latch itself D8 (log entry 5). -/
def Obligations.FetchPastMemoryFaults : Prop :=
  ∀ s : State, s.Running → Config.geometry.memSize ≤ s.pc.toNat + 1 → ∃ t, step s = .next t ∧
    t.fault = some ⟨.addressing, none, some s.pc⟩ ∧ OnlyParts [.fault] s t

/-- A step runs the decoded instruction on the state whose `pc` is already advanced by 2. That an odd address, or one
in a ROM region, is fetched like any other is the spec's own decision D11 (log entry 17); the layout by which three of
the instructions decode is D1 (log entry 3). -/
def Obligations.StepRunsTheDecodedInstruction : Prop :=
  ∀ (s : State) (i : Instr), s.Running → s.At i →
    step s = exec i (s.setPc (BitVec.ofNat 16 (s.pc.toNat + 2)))

/-- A word that matches no row latches the unimplemented-opcode fault after the advance, and changes nothing else.
These are the spec's own decisions: that 610N, 710N and 910N match no row, and 601N, 701N and 901N do, D1 (log entry
3); the place of `pc` D9 and the record's fields D10 (log entry 16); that an odd address is fetched like any other D11
(log entry 17); the latch itself D8 (log entry 5). -/
def Obligations.IllegalWordFaults : Prop :=
  ∀ s : State, s.Running → s.CanFetch → legalWord (wordAtPc s) = false → ∃ t, step s = .next t ∧
    t.fault = some ⟨.unimplementedOpcode, some (wordAtPc s), some s.pc⟩ ∧ t.pc.toNat = (s.pc.toNat + 2) % 65536 ∧
    OnlyParts [.pc, .fault] s t

/-- While the fault latch is set, `TICK` and the host's state-changing operations have no next state and give the
stored record; `GET_SCREEN` and `RESET` still work. The latch is the spec's own decision D8 and D25; that a refused
operation is the outcome `fault` is the model's, log entry 5. -/
def Obligations.HaltedCoreTakesNoStep : Prop :=
  ∀ (s : State) (r : FaultRecord), s.fault = some r →
    step s = .fault (.halted r) ∧
    (∀ bytes a b, hostOp (.load bytes a b) s = .fault (.halted r)) ∧ (∀ a, hostOp (.setPc a) s = .fault (.halted r)) ∧
    hostOp .tickDt s = .fault (.halted r) ∧
    (∀ k, k < 6 → hostOp (.keyDown k) s = .fault (.halted r) ∧ hostOp (.keyUp k) s = .fault (.halted r)) ∧
    hostOp .getScreen s = .next s ∧ ∃ t, hostOp .reset s = .next t ∧ t.fault = none

/-- On a halted core every operation but `RESET` and `GET_SCREEN` changes nothing and answers the stored record,
`GET_SCREEN` answers the pixels, and the host's run goes on after each. The refusals are the spec's own decisions D8 and
D25 (log entry 5). -/
def Obligations.RefusedOperationsChangeNothing : Prop :=
  ∀ (op : HostOp) (s : State) (r : FaultRecord), s.fault = some r → op.wellFormed = true → op ≠ .reset →
    hostCall op s = .next (s, if op = .getScreen then .screen s.fb else .failed r) ∧
    ∀ ops, hostRun (op :: ops) s = hostRun ops s

/-- A host that keeps its duty may issue its operations in any order and number, from any state, halted or not: the
run has an end state. That an operation on a halted core is refused without an end to the run is the spec's own decision
D25 (log entry 5), the free order D14 (log entry 12). -/
def Obligations.DutifulRunsComplete : Prop :=
  ∀ (ops : List HostOp) (s : State), (∀ op ∈ ops, op.wellFormed = true) → ∃ t, hostRun ops s = .next t

/-- `KEY_DOWN` and `KEY_UP` with an index of 6 or more have no move, halted or not: the spec's own decision D15; that
the model refuses them by this name is its choice, log entry 10. -/
def Obligations.BadKeyCallsHaveNoMove : Prop :=
  ∀ (k : Nat) (s : State), 6 ≤ k →
    hostCall (.keyDown k) s = .refused (.keyOutOfRange k) ∧ hostCall (.keyUp k) s = .refused (.keyOutOfRange k)

/-- A core that is not halted always has a next state: every condition of the closed list of faults is latched in it,
and every other condition is silent. Of `tickFault` these are the spec's own decisions: the layout by which three
instructions decode D1 (log entry 3), that the key index is unsigned D3 (log entry 13), the bound of `DIG` D7 (log
entry 15), the records and that faults are precise D9 and D10 (log entry 16), that an odd address is fetched like any
other D11 and the fetch bound without wrap D12 (log entry 17), the latch itself D8 (log entry 5). -/
def Obligations.RunningCoreAlwaysSteps : Prop :=
  ∀ s : State, s.Running → ∃ t, step s = .next t ∧ t.fault = tickFault s

/-- A `TICK` that faults changes `pc` and the latch and nothing else: precise faults and the place of `pc`, the spec's
own decision D9; the record's fields are D10 (log entry 16), the latch itself D8 (log entry 5). -/
def Obligations.FaultsArePrecise : Prop :=
  ∀ (s t : State) (r : FaultRecord), step s = .next t → t.fault = some r →
    OnlyParts [.pc, .fault] s t ∧ r.address = some s.pc ∧
    ((r.opcode = none ∧ t.pc = s.pc) ∨ (r.opcode = some (wordAtPc s) ∧ t.pc.toNat = (s.pc.toNat + 2) % 65536))

/-- How `pc` changes, exhaustively, under every operation. These are the spec's own decisions: where `pc` stands after
a fault D9 (log entry 16); that a fetch at or past the last byte faults, with no wrap, D12, and that an odd address is
fetched like any other D11 (log entry 17); that the skips compare unsigned, with the 8-bit wrap, D3 and D4 (log entry
13); the layout by which three instructions decode, `SKNP` among them, D1 (log entry 3). -/
def Obligations.PcChangesOnlyByTheRule : Prop :=
  ∀ (op : HostOp) (s t : State), hostOp op s = .next t → t.pc.toNat = pcAfter s op

/-- No step writes `dt`, a key latch or a byte of memory. -/
def Obligations.StepLeavesTimerKeysAndMemory : Prop :=
  ∀ s t : State, step s = .next t →
    t.dt = s.dt ∧ (∀ k, t.key k = s.key k) ∧ ∀ a, t.readByte a = s.readByte a

/-- A `TICK` returns `pc` as it stands after the instruction, or the record of the fault. That a fault's `TICK`
returns the record is the spec's own decision D21. Of `pcAfterTick` and `tickFault` these are the spec's own
decisions: the layout by which three instructions decode D1 (log entry 3), the unsigned comparisons and the 8-bit wrap
D3 and D4 (log entry 13), the bound of `DIG` D7 (log entry 15), the place of `pc` after a fault and the record D9 and
D10 (log entry 16), that an odd address is fetched like any other D11 and the fetch bound without wrap D12 (log entry
17). -/
def Obligations.TickReturnsPcOrRecord : Prop :=
  ∀ s t : State, s.Running → step s = .next t →
    HostOp.result .tick t = match tickFault s with
      | none => .pc (BitVec.ofNat 16 (pcAfterTick s))
      | some r => .failed r

/-- From an even `pc`, every step that does not jump to an odd address leaves `pc` even. Where `pc` stands after a
fault is the spec's own decision D9 (log entry 16). -/
def Obligations.OnlyOddJumpsMakePcOdd : Prop :=
  ∀ s t : State, s.pc.toNat % 2 = 0 → (∀ nnn, s.At (.jp nnn) → nnn.toNat % 2 = 0) → step s = .next t →
    t.pc.toNat % 2 = 0

/-- No instruction observes `dt`: a step from a state with another `dt` differs in `dt` alone. Of `RND` this compares two
steps that take the same draw: that the draw is held equal in both is the model's choice, log entry 4 (the draw is free
by the spec's own decision D13, which relates no two draws). -/
def Obligations.TimerIsNotObserved : Prop :=
  ∀ (s : State) (d : Word), step (s.setDt d) = mapNext (fun t => t.setDt d) (step s)

/-- No instruction observes `loop_point`: a step from a state with another `loop_point` differs in it at most. Of `RND`
this compares two steps that take the same draw: that the draw is held equal in both is the model's choice, log entry 4
(the draw is free by the spec's own decision D13, which relates no two draws). -/
def Obligations.LoopPointIsNotObserved : Prop :=
  ∀ (s : State) (v : Word), ∃ v', step (s.setLoopPoint v) = mapNext (fun t => t.setLoopPoint v') (step s)

/-! ### Reset and the invariant -/

/-- Every piece of state after reset. -/
def Obligations.ResetValues : Prop :=
  (∀ r, State.reset.reg r = 0) ∧ State.reset.pc = 0 ∧ State.reset.dt = 0 ∧ State.reset.fReg = 15 ∧
    State.reset.loopPoint = 0 ∧ (∀ k, State.reset.key k = false) ∧ (∀ x y, State.reset.pixel x y = 0) ∧
    (∀ a, State.reset.readByte a = 0) ∧ State.reset.fault = none

/-- The machine's invariant holds after reset. -/
def Obligations.ResetMeetsTheInvariant : Prop := State.reset.Inv

/-- Every step keeps `f_reg`, `loop_point` and every pixel in 0..15, and memory in its form and inside `MEM_SIZE`. -/
def Obligations.StepKeepsTheInvariant : Prop :=
  ∀ s t : State, s.Inv → step s = .next t → t.Inv

/-- Every finite sequence of host operations, ticks among them, keeps the invariant, from any state that meets it. -/
def Obligations.HostRunsKeepTheInvariant : Prop :=
  ∀ (ops : List HostOp) (s t : State), s.Inv → hostRun ops s = .next t → t.Inv

/-! ### Arithmetic and moves -/

/-- `LDI`. -/
def Obligations.LdiLoadsTheLiteral : Prop :=
  ∀ (x : RegNo) (nn : Byte) (s : State), Encodes (.ldi x nn) (0x2000 + 256 * x.toNat + nn.toNat) ∧
    ∃ t, exec (.ldi x nn) s = .next t ∧ t.reg x = nn ∧ OnlyParts [.reg x] s t

/-- `ADDI` and `SUBI` wrap modulo 256 and lose the carry. -/
def Obligations.ImmediateArithmeticWraps : Prop :=
  ∀ (x : RegNo) (nn : Byte) (s : State),
    (Encodes (.addi x nn) (0x3000 + 256 * x.toNat + nn.toNat) ∧
      ∃ t, exec (.addi x nn) s = .next t ∧ t.regNat x = (s.regNat x + nn.toNat) % 256 ∧ OnlyParts [.reg x] s t) ∧
    (Encodes (.subi x nn) (0x4000 + 256 * x.toNat + nn.toNat) ∧
      ∃ t, exec (.subi x nn) s = .next t ∧ (t.regNat x : Int) = ((s.regNat x : Int) - nn.toNat) % 256 ∧
        OnlyParts [.reg x] s t)

/-- `MOV`. -/
def Obligations.MovCopiesTheSource : Prop :=
  ∀ (y z : RegNo) (s : State), Encodes (.mov y z) (0x5000 + 16 * y.toNat + z.toNat) ∧
    ∃ t, exec (.mov y z) s = .next t ∧ t.reg y = s.reg z ∧ OnlyParts [.reg y] s t

/-- `ADD`, `SUB` and `MUL` wrap modulo 256; both sources are read before the write. -/
def Obligations.RegisterArithmeticWraps : Prop :=
  ∀ (y z : RegNo) (s : State),
    (Encodes (.add y z) (0x5100 + 16 * y.toNat + z.toNat) ∧
      ∃ t, exec (.add y z) s = .next t ∧ t.regNat y = (s.regNat y + s.regNat z) % 256 ∧ OnlyParts [.reg y] s t) ∧
    (Encodes (.sub y z) (0x5200 + 16 * y.toNat + z.toNat) ∧
      ∃ t, exec (.sub y z) s = .next t ∧ (t.regNat y : Int) = ((s.regNat y : Int) - s.regNat z) % 256 ∧
        OnlyParts [.reg y] s t) ∧
    (Encodes (.mul y z) (0x5300 + 16 * y.toNat + z.toNat) ∧
      ∃ t, exec (.mul y z) s = .next t ∧ t.regNat y = s.regNat y * s.regNat z % 256 ∧ OnlyParts [.reg y] s t)

/-- `DIV` by a nonzero register is unsigned floor division (unsigned: the spec's own decision D3). -/
def Obligations.DivIsFloorDivision : Prop :=
  ∀ (y z : RegNo) (s : State), s.regNat z ≠ 0 → Encodes (.div y z) (0x5400 + 16 * y.toNat + z.toNat) ∧
    ∃ t, exec (.div y z) s = .next t ∧ t.regNat y = s.regNat y / s.regNat z ∧ OnlyParts [.reg y] s t

/-- `DIV` by zero latches the arithmetic fault with its own word and address and writes no register. The record and
the place of `pc` are the spec's own decisions D9 and D10 (log entry 16); that an odd address is fetched like any
other is D11 (log entry 17), the latch itself D8 (log entry 5). -/
def Obligations.DivByZeroFaults : Prop :=
  ∀ (y z : RegNo) (s : State), s.Running → s.At (.div y z) → s.regNat z = 0 → ∃ t, step s = .next t ∧
    t.fault = some ⟨.arithmetic, some (BitVec.ofNat 16 (0x5400 + 16 * y.toNat + z.toNat)), some s.pc⟩ ∧
    t.pc.toNat = (s.pc.toNat + 2) % 65536 ∧ OnlyParts [.pc, .fault] s t

/-- `RND` writes the environment's next draw, a value 0..15, and uses it up. The statement holds for every value of the
draw, which is free (log entry 4; the spec's own decision D13). -/
def Obligations.RndWritesADraw : Prop :=
  ∀ (n : RegNo) (s : State), Encodes (.rnd n) (0x7000 + n.toNat) ∧
    ∃ t, exec (.rnd n) s = .next t ∧ t.regNat n = (Config.draw s.drawCount).toNat ∧ t.regNat n < 16 ∧
      t.drawCount = s.drawCount + 1 ∧ OnlyParts [.reg n, .drawCount] s t

/-! ### `NOP`, jump and skips -/

/-- `NOP` is the all-zero word alone; its step advances `pc` by 2 modulo 65536 and changes nothing else. That an odd
address is fetched like any other is the spec's own decision D11 (log entry 17). -/
def Obligations.NopOnlyAdvances : Prop :=
  (∀ w, decode w = some .nop ↔ w = 0x0000) ∧ (∀ s, ∃ t, exec .nop s = .next t ∧ OnlyParts [] s t) ∧
    ∀ s : State, s.Running → s.At .nop → ∃ t, step s = .next t ∧ t.pc.toNat = (s.pc.toNat + 2) % 65536 ∧
      OnlyParts [.pc] s t

/-- `JP` sets `pc` to exactly `NNN`; nothing checks the target. -/
def Obligations.JpSetsPcToTheOperand : Prop :=
  ∀ (nnn : Addr12) (s : State), Encodes (.jp nnn) (0x1000 + nnn.toNat) ∧
    ∃ t, exec (.jp nnn) s = .next t ∧ t.pc.toNat = nnn.toNat ∧ OnlyParts [.pc] s t

/-- `SE` skips on equal registers, `SNE` on unequal ones. -/
def Obligations.EqualitySkips : Prop :=
  ∀ (y z : RegNo) (s : State),
    (Encodes (.se y z) (0x5500 + 16 * y.toNat + z.toNat) ∧
      ∃ t, exec (.se y z) s = .next t ∧ SkipsIf (s.reg y = s.reg z) s t) ∧
    (Encodes (.sne y z) (0x5600 + 16 * y.toNat + z.toNat) ∧
      ∃ t, exec (.sne y z) s = .next t ∧ SkipsIf (s.reg y ≠ s.reg z) s t)

/-- `SGT` skips where `S[Y] > S[Z]`, unsigned (the spec's own decision D3). -/
def Obligations.GreaterSkipIsUnsigned : Prop :=
  ∀ (y z : RegNo) (s : State), Encodes (.sgt y z) (0x5700 + 16 * y.toNat + z.toNat) ∧
    ∃ t, exec (.sgt y z) s = .next t ∧ SkipsIf (s.regNat z < s.regNat y) s t

/-- `SOVA`, `SOVB` and `SCOL` skip on the literal overlap comparisons of the spec (unsigned, D3; the 8-bit wrap of the
second test, D4). -/
def Obligations.OverlapSkips : Prop :=
  ∀ (y z : RegNo) (s : State),
    let u := s.regNat y
    let v := s.regNat z
    let t := (v + 8) % 64
    (Encodes (.sova y z) (0x5800 + 16 * y.toNat + z.toNat) ∧
      ∃ s', exec (.sova y z) s = .next s' ∧ SkipsIf (u < v ∧ (u + 8) % 256 > v) s s') ∧
    (Encodes (.sovb y z) (0x5900 + 16 * y.toNat + z.toNat) ∧
      ∃ s', exec (.sovb y z) s = .next s' ∧ SkipsIf (u < t ∧ (u + 8) % 256 > t) s s') ∧
    (Encodes (.scol y z) (0x5A00 + 16 * y.toNat + z.toNat) ∧
      ∃ s', exec (.scol y z) s = .next s' ∧
        SkipsIf ((u < v ∧ (u + 8) % 256 > v) ∨ (u < t ∧ (u + 8) % 256 > t) ∨ u = v) s s')

/-- The two overlap tests as intervals: each holds exactly for the up to seven values just below its bound, and for no
value of 248 or more. They are intervals of unsigned values, the spec's own decision D3, with the 8-bit wrap of the
sum, D4 (log entry 13). -/
def Obligations.OverlapTestsAreIntervals : Prop :=
  ∀ y z : Byte,
    (ovA y z = true ↔ y.toNat ≤ 247 ∧ z.toNat - 7 ≤ y.toNat ∧ y.toNat + 1 ≤ z.toNat) ∧
    (ovB y z = true ↔ y.toNat ≤ 247 ∧ (z.toNat + 8) % 64 - 7 ≤ y.toNat ∧ y.toNat + 1 ≤ (z.toNat + 8) % 64)

/-- On a valid key index `SKP` skips where the key is down and `SKNP` where it is up (the layout of `SKNP` is the
spec's own decision D1). -/
def Obligations.KeySkipsFollowTheLatch : Prop :=
  ∀ (n : RegNo) (s : State) (k : Fin 6), s.regNat n = k.val →
    (Encodes (.skp n) (0x9000 + n.toNat) ∧ ∃ t, exec (.skp n) s = .next t ∧ SkipsIf (s.key k = true) s t) ∧
    (Encodes (.sknp n) (0x9010 + n.toNat) ∧ ∃ t, exec (.sknp n) s = .next t ∧ SkipsIf (s.key k = false) s t)

/-- A key index of 6 or more latches the invalid-key-index fault, with no skip. These are the spec's own decisions:
the record and the place of `pc` D9 and D10 (log entry 16), the layout of `SKNP` D1 (log entry 3), that the index is
unsigned D3 (log entry 13), that an odd address is fetched like any other D11 (log entry 17), the latch itself D8 (log
entry 5). -/
def Obligations.BadKeyIndexFaults : Prop :=
  ∀ (n : RegNo) (s : State), s.Running → 6 ≤ s.regNat n →
    (s.At (.skp n) → ∃ t, step s = .next t ∧
      t.fault = some ⟨.invalidKeyIndex, some (BitVec.ofNat 16 (0x9000 + n.toNat)), some s.pc⟩ ∧
      t.pc.toNat = (s.pc.toNat + 2) % 65536 ∧ OnlyParts [.pc, .fault] s t) ∧
    (s.At (.sknp n) → ∃ t, step s = .next t ∧
      t.fault = some ⟨.invalidKeyIndex, some (BitVec.ofNat 16 (0x9010 + n.toNat)), some s.pc⟩ ∧
      t.pc.toNat = (s.pc.toNat + 2) % 65536 ∧ OnlyParts [.pc, .fault] s t)

/-- `RSK` adds `2*X` to the advanced `pc`, modulo 65536, where the registers differ. -/
def Obligations.RskSkipsForward : Prop :=
  ∀ (x : Nibble) (y z : RegNo) (s : State),
    Encodes (.rsk x y z) (0xA000 + 256 * x.toNat + 16 * y.toNat + z.toNat) ∧
    ∃ t, exec (.rsk x y z) s = .next t ∧
      (s.reg y ≠ s.reg z → t.pc.toNat = (s.pc.toNat + 2 * x.toNat) % 65536) ∧ (s.reg y = s.reg z → t.pc = s.pc) ∧
      OnlyParts [.pc] s t

/-! ### Special registers -/

/-- `SETF` and `LPI` write a literal 0..15. -/
def Obligations.LiteralWritesOfSpecialRegisters : Prop :=
  ∀ (n : Nibble) (s : State),
    (Encodes (.setf n) (0x6000 + n.toNat) ∧
      ∃ t, exec (.setf n) s = .next t ∧ t.fReg.toNat = n.toNat ∧ OnlyParts [.fReg] s t) ∧
    (Encodes (.lpi n) (0x8000 + n.toNat) ∧
      ∃ t, exec (.lpi n) s = .next t ∧ t.loopPoint.toNat = n.toNat ∧ OnlyParts [.loopPoint] s t)

/-- `SETFR` and `LPR` write the register modulo 16 (the layout of both words is the spec's own decision D1). -/
def Obligations.RegisterWritesOfSpecialRegisters : Prop :=
  ∀ (n : RegNo) (s : State),
    (Encodes (.setfr n) (0x6010 + n.toNat) ∧
      ∃ t, exec (.setfr n) s = .next t ∧ t.fReg.toNat = s.regNat n % 16 ∧ OnlyParts [.fReg] s t) ∧
    (Encodes (.lpr n) (0x7010 + n.toNat) ∧
      ∃ t, exec (.lpr n) s = .next t ∧ t.loopPoint.toNat = s.regNat n % 16 ∧ OnlyParts [.loopPoint] s t)

/-! ### The framebuffer -/

/-- `CLS` sets every pixel to 0 and changes nothing else. -/
def Obligations.ClsClearsEveryPixel : Prop :=
  Encodes .cls 0x000C ∧
    ∀ s : State, ∃ t, exec .cls s = .next t ∧ (∀ x y, t.pixel x y = 0) ∧ OnlyPixels s t

/-- `DRW` never faults: it draws sprite `X`, 32 bytes from `SPRITE_ROM_START + 32*X`, opaque-nonzero, at
`(S[Y], S[Z])`, wrapping (the byte index within a glyph is the spec's own decision D6). -/
def Obligations.DrwDrawsTheSprite : Prop :=
  ∀ (x : Nibble) (y z : RegNo) (s : State),
    Encodes (.drw x y z) (0xD000 + 256 * x.toNat + 16 * y.toNat + z.toNat) ∧
    ∃ t, exec (.drw x y z) s = .next t ∧
      Drawn opaqueRule (s.glyphBytes (Config.geometry.spriteStart + x.toNat * 32)) (s.regNat y) (s.regNat z) s t ∧
      OnlyPixels s t

/-- `NUM` never faults: it draws the decimal numeral of `S[X]`, no leading zeros (the spec's own decision D5, log
entry 14), each digit 8 columns right of the one before, keyed with `f_reg`. That `S[X]` is unsigned is the spec's own
decision D3 (log entry 13), which glyph byte reaches which pixel D6 (log entry 14). -/
def Obligations.NumDrawsTheNumeral : Prop :=
  ∀ (x y z : RegNo) (s : State),
    Encodes (.num x y z) (0xE000 + 256 * x.toNat + 16 * y.toNat + z.toNat) ∧
    ∃ t, exec (.num x y z) s = .next t ∧ OnlyPixels s t ∧
      ∀ px py : Fin 64, (t.pixel px py).toNat =
        let c := torusOffset px (s.regNat y)
        let r := torusOffset py (s.regNat z)
        let digit := numeralDigit (s.regNat x) (c / 8)
        if c < 8 * numeralLength (s.regNat x) ∧ r < 8
        then (keyedRule s.fReg.toNat
          (glyphPixel (s.glyphBytes (Config.geometry.fontStart + digit * 32)) (c % 8) r)).getD (s.pixel px py).toNat
        else (s.pixel px py).toNat

/-- `DIG` on a digit 0..9, or on any index whose glyph lies in memory (the spec's own decision D7, log entry 15),
draws that glyph, keyed with `f_reg`. Which glyph byte reaches which pixel is the spec's own decision D6 (log entry
14), that the index is unsigned D3 (log entry 13). -/
def Obligations.DigDrawsTheGlyph : Prop :=
  ∀ (x y z : RegNo) (s : State),
    (s.regNat x ≤ 9 ∨ Config.geometry.fontStart + s.regNat x * 32 + 32 ≤ Config.geometry.memSize) →
    Encodes (.dig x y z) (0xF000 + 256 * x.toNat + 16 * y.toNat + z.toNat) ∧
    ∃ t, exec (.dig x y z) s = .next t ∧
      Drawn (keyedRule s.fReg.toNat) (s.glyphBytes (Config.geometry.fontStart + s.regNat x * 32)) (s.regNat y)
        (s.regNat z) s t ∧
      OnlyPixels s t

/-- On any geometry, `DIG` on a glyph that leaves memory draws nothing and latches the addressing fault (the spec's
own decision D7, log entry 15); the machine's `DIG` is that on the machine's geometry. The record and the precise
fault are the spec's own decisions D9 and D10 (log entry 16), that the index is unsigned D3 (log entry 13), the latch
itself D8 (log entry 5); that the record's word and its address `pc - 2` are computed from the instruction and the
advanced `pc` is the model's inference, log entry 6. -/
def Obligations.DigPastMemoryFaults : Prop :=
  ∀ (x y z : RegNo) (s : State),
    exec (.dig x y z) s = .next (s.drawDigit Config.geometry x y z) ∧
    ∀ g : Geometry, g.memSize < g.fontStart + s.regNat x * 32 + 32 →
      (s.drawDigit g x y z).fault = some ⟨.addressing,
        some (BitVec.ofNat 16 (0xF000 + 256 * x.toNat + 16 * y.toNat + z.toNat)), some (s.pc - 2)⟩ ∧
      OnlyParts [.fault] s (s.drawDigit g x y z)

/-- A position and the position reduced modulo 64 draw identically, in both modes. -/
def Obligations.DrawingWrapsModulo64 : Prop :=
  ∀ (ink : Ink) (g : List Byte) (x y : Nat) (fb : Framebuffer), blit ink g x y fb = blit ink g (x % 64) (y % 64) fb

/-! ### The host -/

/-- A `LOAD` whose range fits copies its bytes and changes nothing else (the check before the copy and the freedom to
load at any time are the spec's own decisions D16 and D17). -/
def Obligations.LoadCopiesItsBytes : Prop :=
  ∀ (bytes : List Byte) (a b : Nat) (s : State), s.Running → s.MemOk → a ≤ b → b - a = bytes.length →
    b ≤ Config.geometry.memSize → ∃ t, hostOp (.load bytes a b) s = .next t ∧
      (∀ k, k < bytes.length → t.readByte (a + k) = bytes.getD k 0) ∧
      OnlyChanges (fun p => ∃ k, k < bytes.length ∧ p = .byte (a + k)) s t

/-- A `LOAD` whose range is malformed or leaves memory changes no byte and latches the addressing fault (the spec's
own decision D16, log entry 19). That nothing else changes and the record's fields are the spec's own decisions D9 and
D10 (log entry 16), the latch itself D8 (log entry 5). -/
def Obligations.BadLoadFaults : Prop :=
  ∀ (bytes : List Byte) (a b : Nat) (s : State), s.Running →
    (b < a ∨ b - a ≠ bytes.length ∨ Config.geometry.memSize < b) → ∃ t, hostOp (.load bytes a b) s = .next t ∧
      t.fault = some ⟨.addressing, none, none⟩ ∧ OnlyParts [.fault] s t

/-- An instruction that `LOAD` places at `pc` is the one the next `TICK` runs. That `LOAD` is allowed between any two
ticks and that the next fetch sees its bytes is the spec's own decision D17, log entry 19; the bytes of `SETFR`, `LPR`
and `SKNP` are D1 (log entry 3), and that an odd address is fetched like any other D11 (log entry 17). -/
def Obligations.LoadedInstructionRunsNext : Prop :=
  ∀ (i : Instr) (s : State), s.Running → s.MemOk → s.CanFetch →
    ∃ m t, hostRun [.load (encodeBytes i) s.pc.toNat (s.pc.toNat + 2), .tick] s = .next t ∧
      m.wf ∧ (∀ a, m.read a = if a = s.pc.toNat then highByte (encode i)
        else if a = s.pc.toNat + 1 then lowByte (encode i) else s.readByte a) ∧
      exec i (s.setMem m).advance = .next t

/-- `SET_PC` stores any address, `TICK_DT` counts `dt` up modulo 65536, `KEY_DOWN` and `KEY_UP` write one latch; each
changes nothing else. That `SET_PC` is allowed between any two ticks is the spec's own decision D17 (log entry 19). -/
def Obligations.HostWritesOneRegister : Prop :=
  ∀ s : State, s.Running →
    (∀ a, ∃ t, hostOp (.setPc a) s = .next t ∧ t.pc = a ∧ OnlyParts [.pc] s t) ∧
    (∃ t, hostOp .tickDt s = .next t ∧ t.dt.toNat = (s.dt.toNat + 1) % 65536 ∧ OnlyParts [.dt] s t) ∧
    ∀ k : Fin 6, (∃ t, hostOp (.keyDown k.val) s = .next t ∧ t.key k = true ∧ OnlyParts [.key k] s t) ∧
      ∃ t, hostOp (.keyUp k.val) s = .next t ∧ t.key k = false ∧ OnlyParts [.key k] s t

/-- `RESET` brings every piece of the core's state to its reset value from any state, halted or not; the random source
goes on (`drawCount` is the model's own, log entry 4). That `RESET` clears memory is the spec's own decision D20 (log
entry 18), that it alone clears the latch D8 (log entry 5). -/
def Obligations.ResetOperationRestoresAll : Prop :=
  ∀ s : State, ∃ t, hostOp .reset s = .next t ∧ OnlyParts [.drawCount] State.reset t ∧ t.drawCount = s.drawCount
end

