-- ==== Sys2Proof/Laws/Config.lean ====
section
/-! SUPPORT. The geometry meets the constraints of 00_scope.md R7, and leaves open everything those constraints do. -/

namespace Sys2Proof

/-- The five constraints, as inequalities. -/
theorem Geometry.wellFormed_iff (g : Geometry) :
    g.wellFormed = true ↔
      0 < g.spriteStart ∧ g.spriteStart ≤ g.fontStart ∧ g.fontStart + 10 * 32 ≤ g.memSize ∧
        g.spriteStart + 16 * 32 ≤ g.memSize ∧ g.memSize ≤ 65536 := by
  simp [Geometry.wellFormed, and_assoc]

/-- Every geometry that three numbers select meets the constraints. -/
theorem Geometry.ofRaw_wellFormed (a b c : Nat) : (Geometry.ofRaw a b c).wellFormed = true := by
  rw [Geometry.wellFormed_iff]
  simp only [Geometry.ofRaw]
  have h1 := Nat.mod_lt a (show 0 < 65024 by decide)
  have h2 := Nat.mod_lt b (show 0 < a % 65024 + 513 - 512 by omega)
  have h3 := Nat.mod_lt c (show 0 < a % 65024 + 513 - 320 - (b % (a % 65024 + 513 - 512) + 1) + 1 by omega)
  omega

/-- Every geometry that meets the constraints is selected by some three numbers. -/
theorem Geometry.ofRaw_covers (g : Geometry) (h : g.wellFormed = true) : ∃ a b c, Geometry.ofRaw a b c = g := by
  obtain ⟨m, s, f⟩ := g
  rw [Geometry.wellFormed_iff] at h
  simp only at h
  refine ⟨m - 513, s - 1, f - s, ?_⟩
  have e1 : (m - 513) % 65024 + 513 = m := by omega
  have e2 : (s - 1) % (m - 512) + 1 = s := by rw [Nat.mod_eq_of_lt (by omega)]; omega
  have e3 : s + (f - s) % (m - 320 - s + 1) = f := by rw [Nat.mod_eq_of_lt (by omega)]; omega
  simp only [Geometry.ofRaw, e1, e2, e3]

/-- The machine's geometry meets the constraints. -/
theorem Config.geometry_wellFormed :
    0 < Config.geometry.spriteStart ∧ Config.geometry.spriteStart ≤ Config.geometry.fontStart ∧
      Config.geometry.fontStart + 10 * 32 ≤ Config.geometry.memSize ∧
      Config.geometry.spriteStart + 16 * 32 ≤ Config.geometry.memSize ∧ Config.geometry.memSize ≤ 65536 :=
  (Geometry.wellFormed_iff _).1 (Geometry.ofRaw_wellFormed _ _ _)

end Sys2Proof
end

