-- ==== Sys2Proof/Laws/Memory.lean ====
section
/-! SUPPORT. The laws of memory: a byte reads back what was written, every other byte is unchanged, and every operation
keeps the canonical form. -/

namespace Sys2Proof.Machine

@[simp] theorem Memory.read_nil (a : Nat) : Memory.read [] a = Memory.unlisted := rfl

/-- An address below every listed one reads as unlisted. -/
theorem Memory.read_of_lt {m : Memory} {a : Nat} (h : ∀ c ∈ m, a < c.1) : m.read a = Memory.unlisted := by
  induction m with
  | nil => rfl
  | cons c rest ih =>
    have h0 : c.1 ≠ a := Nat.ne_of_gt (h c (by simp))
    simp only [Memory.read, h0, if_false]
    exact ih fun d hd => h d (by simp [hd])

/-- A byte reads back what was written to it, and every other byte is unchanged. -/
theorem Memory.read_write {m : Memory} (hm : m.wf) (a b : Nat) (v : Byte) :
    (m.write a v).read b = if b = a then v else m.read b := by
  induction m with
  | nil =>
    by_cases hv : v = Memory.unlisted <;> by_cases hb : b = a <;>
      simp_all [Memory.write, Memory.read, eq_comm]
  | cons c rest ih =>
    obtain ⟨k, w⟩ := c
    obtain ⟨hp, hz⟩ := hm
    rw [List.pairwise_cons] at hp
    have hrest : Memory.wf rest := ⟨hp.2, fun d hd => hz d (by simp [hd])⟩
    unfold Memory.write
    split
    · rename_i hak
      have hun : Memory.read ((k, w) :: rest) a = Memory.unlisted :=
        Memory.read_of_lt fun d hd => by
          rcases List.mem_cons.1 hd with rfl | hd
          · exact hak
          · exact lt_trans hak (hp.1 d hd)
      split
      · rename_i hv
        split
        · rename_i hb; subst hb; rw [hun, hv]
        · rfl
      · by_cases hb : b = a
        · simp [Memory.read, hb]
        · simp [Memory.read, hb, Ne.symm hb]
    · split
      · rename_i _ hak
        subst hak
        have hun : Memory.read rest a = Memory.unlisted := Memory.read_of_lt hp.1
        split
        · rename_i hv
          by_cases hb : b = a
          · simp [hb, hun, hv]
          · simp [Memory.read, hb, Ne.symm hb]
        · by_cases hb : b = a
          · simp [Memory.read, hb]
          · simp [Memory.read, hb, Ne.symm hb]
      · rename_i _ hak
        by_cases hb : k = b
        · subst hb; simp [Memory.read, Ne.symm hak]
        · simp only [Memory.read, hb, if_false]
          exact ih hrest

/-- Whatever holds of the addresses already listed and of the address written holds of the addresses listed after. -/
theorem Memory.forall_key_write {m : Memory} {a : Nat} {v : Byte} {p : Nat → Prop} (hm : ∀ c ∈ m, p c.1) (ha : p a) :
    ∀ c ∈ m.write a v, p c.1 := by
  induction m with
  | nil => unfold Memory.write; split <;> simp [ha]
  | cons c rest ih =>
    obtain ⟨k, w⟩ := c
    have hk : p k := hm (k, w) (by simp)
    have hr : ∀ c ∈ rest, p c.1 := fun d hd => hm d (by simp [hd])
    unfold Memory.write
    split
    · split
      · exact hm
      · intro d hd
        rcases List.mem_cons.1 hd with rfl | hd
        · exact ha
        · exact hm d hd
    · split
      · split
        · exact hr
        · intro d hd
          rcases List.mem_cons.1 hd with rfl | hd
          · exact hk
          · exact hr d hd
      · intro d hd
        rcases List.mem_cons.1 hd with rfl | hd
        · exact hk
        · exact ih hr d hd

/-- A write keeps the canonical form. -/
theorem Memory.write_wf {m : Memory} (hm : m.wf) (a : Nat) (v : Byte) : (m.write a v).wf := by
  induction m with
  | nil =>
    unfold Memory.write
    split
    · exact hm
    · rename_i hv; exact ⟨by simp, by simpa using hv⟩
  | cons c rest ih =>
    obtain ⟨k, w⟩ := c
    obtain ⟨hp, hz⟩ := hm
    have hp' := List.pairwise_cons.1 hp
    have hrest : Memory.wf rest := ⟨hp'.2, fun d hd => hz d (by simp [hd])⟩
    have hw : w ≠ Memory.unlisted := hz (k, w) (by simp)
    unfold Memory.write
    split
    · rename_i hak
      split
      · exact ⟨hp, hz⟩
      · rename_i hv
        refine ⟨List.pairwise_cons.2 ⟨fun d hd => ?_, hp⟩, fun d hd => ?_⟩
        · rcases List.mem_cons.1 hd with rfl | hd
          · exact hak
          · exact lt_trans hak (hp'.1 d hd)
        · rcases List.mem_cons.1 hd with rfl | hd
          · exact hv
          · exact hz d hd
    · split
      · split
        · exact hrest
        · rename_i hv
          refine ⟨List.pairwise_cons.2 ⟨hp'.1, hp'.2⟩, fun d hd => ?_⟩
          rcases List.mem_cons.1 hd with rfl | hd
          · exact hv
          · exact hrest.2 d hd
      · rename_i hlt hne
        have ih' := ih hrest
        refine ⟨List.pairwise_cons.2 ⟨fun d hd => ?_, ih'.1⟩, fun d hd => ?_⟩
        · exact Memory.forall_key_write (p := fun n => k < n) hp'.1 (by omega) d hd
        · rcases List.mem_cons.1 hd with rfl | hd
          · exact hw
          · exact ih'.2 d hd

/-- A write below `n` lists no address at or above `n`. -/
theorem Memory.write_below {m : Memory} {n a : Nat} (hm : m.below n) (ha : a < n) (v : Byte) : (m.write a v).below n :=
  Memory.forall_key_write (p := fun k => k < n) hm ha

theorem Memory.writeList_wf {m : Memory} (hm : m.wf) (a : Nat) (bs : List Byte) : (m.writeList a bs).wf := by
  induction bs generalizing m a with
  | nil => exact hm
  | cons b bs ih => exact ih (Memory.write_wf hm a b) (a + 1)

theorem Memory.writeList_below {m : Memory} {n a : Nat} {bs : List Byte} (hm : m.below n) (ha : a + bs.length ≤ n) :
    (m.writeList a bs).below n := by
  induction bs generalizing m a with
  | nil => exact hm
  | cons b bs ih =>
    simp only [List.length_cons] at ha
    exact ih (Memory.write_below hm (by omega) b) (by omega)

/-- What memory holds after consecutive bytes were written. -/
theorem Memory.read_writeList {m : Memory} (hm : m.wf) (a : Nat) (bs : List Byte) (b : Nat) :
    (m.writeList a bs).read b = if a ≤ b ∧ b < a + bs.length then bs.getD (b - a) 0 else m.read b := by
  induction bs generalizing m a with
  | nil => simp [Memory.writeList]
  | cons v bs ih =>
    rw [Memory.writeList, ih (Memory.write_wf hm a v), Memory.read_write hm]
    simp only [List.length_cons]
    by_cases hb : b = a
    · subst hb; simp
    · by_cases h : a + 1 ≤ b ∧ b < a + 1 + bs.length
      · rw [if_pos h, if_pos (by omega), show b - a = (b - (a + 1)) + 1 by omega]; simp
      · rw [if_neg h, if_neg hb, if_neg (by omega)]

@[simp] theorem Memory.readList_length (m : Memory) (a n : Nat) : (m.readList a n).length = n := by
  induction n generalizing a with
  | zero => rfl
  | succ n ih => simp [Memory.readList, ih]

/-- Byte `i` of a range is the byte at address `a + i`. -/
theorem Memory.readList_getD (m : Memory) (a n i : Nat) (h : i < n) : (m.readList a n).getD i 0 = m.read (a + i) := by
  induction n generalizing a i with
  | zero => omega
  | succ n ih =>
    cases i with
    | zero => simp [Memory.readList]
    | succ i =>
      have := ih (a + 1) i (by omega)
      simpa [Memory.readList, show a + 1 + i = a + (i + 1) by omega] using this

/-- A range read answers exactly where the range lies in memory. -/
theorem Memory.readRange_eq_some {g : Geometry} {m : Memory} {a n : Nat} (h : a + n ≤ g.memSize) :
    m.readRange g a n = some (m.readList a n) := if_pos h

theorem Memory.readRange_eq_none {g : Geometry} {m : Memory} {a n : Nat} (h : g.memSize < a + n) :
    m.readRange g a n = none := if_neg (by omega)

end Sys2Proof.Machine
end

