-- ==== Sys2Proof/Laws/Operands.lean ====
section
/-! SUPPORT. The operand forms as numbers, the decimal digits, and the glyphs the parameter constraints keep in memory. -/

namespace Sys2Proof.Machine

@[simp] theorem litByte_toNat (n : Nibble) : (litByte n).toNat = n.toNat := by
  simp [litByte]; omega

@[simp] theorem litWord_toNat (n : Nibble) : (litWord n).toNat = n.toNat := by
  simp [litWord]; omega

@[simp] theorem lowNibble_toNat (v : Byte) : (lowNibble v).toNat = v.toNat % 16 := by
  simp [lowNibble]

@[simp] theorem highNibble_toNat (v : Byte) : (highNibble v).toNat = v.toNat / 16 := by
  simp [highNibble, Nat.shiftRight_eq_div_pow]; omega

@[simp] theorem jumpTarget_toNat (nnn : Addr12) : (jumpTarget nnn).toNat = nnn.toNat := by
  simp [jumpTarget]; omega

@[simp] theorem rskOffset_toNat (x : Nibble) : (rskOffset x).toNat = 2 * x.toNat := by
  simp [rskOffset]; omega

/-- A register value as a number is the register's bits as a number. -/
theorem State.regNat_eq (s : State) (r : RegNo) : s.regNat r = (s.reg r).toNat := rfl

/-- A register value below 6 selects the key of that number. -/
theorem State.keyIndex_of_lt {s : State} {n : RegNo} (h : s.regNat n < 6) : s.keyIndex n = some ⟨s.regNat n, h⟩ :=
  dif_pos h

/-- A register value of 6 or more selects no key. -/
theorem State.keyIndex_of_ge {s : State} {n : RegNo} (h : 6 ≤ s.regNat n) : s.keyIndex n = none :=
  dif_neg (by omega)

/-- Every decimal digit of a register value is 0..9. -/
theorem decimalDigits_le {v d : Nat} (hv : v < 256) (hd : d ∈ decimalDigits v) : d ≤ 9 := by
  unfold decimalDigits at hd
  split at hd
  · simp at hd; omega
  · split at hd <;> simp at hd <;> omega

/-- A glyph that lies in memory is its 32 bytes. -/
theorem State.glyph_eq_some {g : Geometry} {s : State} {base index : Nat} (h : base + index * 32 + 32 ≤ g.memSize) :
    s.glyph g base index = some (s.mem.readList (base + index * 32) 32) := Memory.readRange_eq_some h

/-- A glyph that leaves memory is none. -/
theorem State.glyph_eq_none {g : Geometry} {s : State} {base index : Nat} (h : g.memSize < base + index * 32 + 32) :
    s.glyph g base index = none := Memory.readRange_eq_none h

/-- The glyphs of indexes that all lie in memory are their bytes. -/
theorem State.glyphs_eq_some {g : Geometry} {s : State} {base : Nat} {ds : List Nat}
    (h : ∀ d ∈ ds, base + d * 32 + 32 ≤ g.memSize) :
    s.glyphs g base ds = some (ds.map fun d => s.mem.readList (base + d * 32) 32) := by
  induction ds with
  | nil => rfl
  | cons d ds ih =>
    rw [State.glyphs, State.glyph_eq_some (h d (by simp)), ih fun e he => h e (by simp [he])]
    rfl

/-- Every sprite lies in memory (00_scope.md R7). -/
theorem State.sprite_in_memory (s : State) (x : Nibble) :
    s.glyph Config.geometry Config.geometry.spriteStart x.toNat =
      some (s.mem.readList (Config.geometry.spriteStart + x.toNat * 32) 32) := by
  have h := Config.geometry_wellFormed
  exact State.glyph_eq_some (by have := x.isLt; omega)

/-- The glyphs of the decimal digits of a register value lie in memory (00_scope.md R7). -/
theorem State.digits_in_memory (s : State) (x : RegNo) :
    s.glyphs Config.geometry Config.geometry.fontStart (decimalDigits (s.regNat x)) =
      some ((decimalDigits (s.regNat x)).map fun d => s.mem.readList (Config.geometry.fontStart + d * 32) 32) := by
  have h := Config.geometry_wellFormed
  refine State.glyphs_eq_some fun d hd => ?_
  have := decimalDigits_le (s.reg x).isLt hd
  omega

end Sys2Proof.Machine
end

