-- ==== Sys2Proof/Laws/State.lean ====
section
/-! SUPPORT. What each update of the state does to each field and each accessor: one lemma a pair, true by unfolding, so
that no later proof unfolds a record update. -/

namespace Sys2Proof.Machine

variable (s : State)

/-! ### `setReg` -/

@[simp] theorem State.setReg_regs (r : RegNo) (v : Byte) : (s.setReg r v).regs = s.regs.set r.toNat v := rfl
@[simp] theorem State.setReg_pc (r : RegNo) (v : Byte) : (s.setReg r v).pc = s.pc := rfl
@[simp] theorem State.setReg_dt (r : RegNo) (v : Byte) : (s.setReg r v).dt = s.dt := rfl
@[simp] theorem State.setReg_fReg (r : RegNo) (v : Byte) : (s.setReg r v).fReg = s.fReg := rfl
@[simp] theorem State.setReg_loopPoint (r : RegNo) (v : Byte) : (s.setReg r v).loopPoint = s.loopPoint := rfl
@[simp] theorem State.setReg_keys (r : RegNo) (v : Byte) : (s.setReg r v).keys = s.keys := rfl
@[simp] theorem State.setReg_fb (r : RegNo) (v : Byte) : (s.setReg r v).fb = s.fb := rfl
@[simp] theorem State.setReg_mem (r : RegNo) (v : Byte) : (s.setReg r v).mem = s.mem := rfl
@[simp] theorem State.setReg_fault (r : RegNo) (v : Byte) : (s.setReg r v).fault = s.fault := rfl
@[simp] theorem State.setReg_drawCount (r : RegNo) (v : Byte) : (s.setReg r v).drawCount = s.drawCount := rfl
@[simp] theorem State.setReg_pixel (r : RegNo) (v : Byte) (x y : Fin 64) :
    (s.setReg r v).pixel x y = s.pixel x y := rfl
@[simp] theorem State.setReg_readByte (r : RegNo) (v : Byte) (a : Nat) :
    (s.setReg r v).readByte a = s.readByte a := rfl
@[simp] theorem State.setReg_key (r : RegNo) (v : Byte) (j : Fin 6) :
    (s.setReg r v).key j = s.key j := rfl

/-! ### `setPc` -/

@[simp] theorem State.setPc_regs (v : Word) : (s.setPc v).regs = s.regs := rfl
@[simp] theorem State.setPc_pc (v : Word) : (s.setPc v).pc = v := rfl
@[simp] theorem State.setPc_dt (v : Word) : (s.setPc v).dt = s.dt := rfl
@[simp] theorem State.setPc_fReg (v : Word) : (s.setPc v).fReg = s.fReg := rfl
@[simp] theorem State.setPc_loopPoint (v : Word) : (s.setPc v).loopPoint = s.loopPoint := rfl
@[simp] theorem State.setPc_keys (v : Word) : (s.setPc v).keys = s.keys := rfl
@[simp] theorem State.setPc_fb (v : Word) : (s.setPc v).fb = s.fb := rfl
@[simp] theorem State.setPc_mem (v : Word) : (s.setPc v).mem = s.mem := rfl
@[simp] theorem State.setPc_fault (v : Word) : (s.setPc v).fault = s.fault := rfl
@[simp] theorem State.setPc_drawCount (v : Word) : (s.setPc v).drawCount = s.drawCount := rfl
@[simp] theorem State.setPc_reg (v : Word) (q : RegNo) :
    (s.setPc v).reg q = s.reg q := rfl
@[simp] theorem State.setPc_pixel (v : Word) (x y : Fin 64) :
    (s.setPc v).pixel x y = s.pixel x y := rfl
@[simp] theorem State.setPc_readByte (v : Word) (a : Nat) :
    (s.setPc v).readByte a = s.readByte a := rfl
@[simp] theorem State.setPc_key (v : Word) (j : Fin 6) :
    (s.setPc v).key j = s.key j := rfl

/-! ### `setDt` -/

@[simp] theorem State.setDt_regs (v : Word) : (s.setDt v).regs = s.regs := rfl
@[simp] theorem State.setDt_pc (v : Word) : (s.setDt v).pc = s.pc := rfl
@[simp] theorem State.setDt_dt (v : Word) : (s.setDt v).dt = v := rfl
@[simp] theorem State.setDt_fReg (v : Word) : (s.setDt v).fReg = s.fReg := rfl
@[simp] theorem State.setDt_loopPoint (v : Word) : (s.setDt v).loopPoint = s.loopPoint := rfl
@[simp] theorem State.setDt_keys (v : Word) : (s.setDt v).keys = s.keys := rfl
@[simp] theorem State.setDt_fb (v : Word) : (s.setDt v).fb = s.fb := rfl
@[simp] theorem State.setDt_mem (v : Word) : (s.setDt v).mem = s.mem := rfl
@[simp] theorem State.setDt_fault (v : Word) : (s.setDt v).fault = s.fault := rfl
@[simp] theorem State.setDt_drawCount (v : Word) : (s.setDt v).drawCount = s.drawCount := rfl
@[simp] theorem State.setDt_reg (v : Word) (q : RegNo) :
    (s.setDt v).reg q = s.reg q := rfl
@[simp] theorem State.setDt_pixel (v : Word) (x y : Fin 64) :
    (s.setDt v).pixel x y = s.pixel x y := rfl
@[simp] theorem State.setDt_readByte (v : Word) (a : Nat) :
    (s.setDt v).readByte a = s.readByte a := rfl
@[simp] theorem State.setDt_key (v : Word) (j : Fin 6) :
    (s.setDt v).key j = s.key j := rfl

/-! ### `setFReg` -/

@[simp] theorem State.setFReg_regs (v : Byte) : (s.setFReg v).regs = s.regs := rfl
@[simp] theorem State.setFReg_pc (v : Byte) : (s.setFReg v).pc = s.pc := rfl
@[simp] theorem State.setFReg_dt (v : Byte) : (s.setFReg v).dt = s.dt := rfl
@[simp] theorem State.setFReg_fReg (v : Byte) : (s.setFReg v).fReg = v := rfl
@[simp] theorem State.setFReg_loopPoint (v : Byte) : (s.setFReg v).loopPoint = s.loopPoint := rfl
@[simp] theorem State.setFReg_keys (v : Byte) : (s.setFReg v).keys = s.keys := rfl
@[simp] theorem State.setFReg_fb (v : Byte) : (s.setFReg v).fb = s.fb := rfl
@[simp] theorem State.setFReg_mem (v : Byte) : (s.setFReg v).mem = s.mem := rfl
@[simp] theorem State.setFReg_fault (v : Byte) : (s.setFReg v).fault = s.fault := rfl
@[simp] theorem State.setFReg_drawCount (v : Byte) : (s.setFReg v).drawCount = s.drawCount := rfl
@[simp] theorem State.setFReg_reg (v : Byte) (q : RegNo) :
    (s.setFReg v).reg q = s.reg q := rfl
@[simp] theorem State.setFReg_pixel (v : Byte) (x y : Fin 64) :
    (s.setFReg v).pixel x y = s.pixel x y := rfl
@[simp] theorem State.setFReg_readByte (v : Byte) (a : Nat) :
    (s.setFReg v).readByte a = s.readByte a := rfl
@[simp] theorem State.setFReg_key (v : Byte) (j : Fin 6) :
    (s.setFReg v).key j = s.key j := rfl

/-! ### `setLoopPoint` -/

@[simp] theorem State.setLoopPoint_regs (v : Word) : (s.setLoopPoint v).regs = s.regs := rfl
@[simp] theorem State.setLoopPoint_pc (v : Word) : (s.setLoopPoint v).pc = s.pc := rfl
@[simp] theorem State.setLoopPoint_dt (v : Word) : (s.setLoopPoint v).dt = s.dt := rfl
@[simp] theorem State.setLoopPoint_fReg (v : Word) : (s.setLoopPoint v).fReg = s.fReg := rfl
@[simp] theorem State.setLoopPoint_loopPoint (v : Word) : (s.setLoopPoint v).loopPoint = v := rfl
@[simp] theorem State.setLoopPoint_keys (v : Word) : (s.setLoopPoint v).keys = s.keys := rfl
@[simp] theorem State.setLoopPoint_fb (v : Word) : (s.setLoopPoint v).fb = s.fb := rfl
@[simp] theorem State.setLoopPoint_mem (v : Word) : (s.setLoopPoint v).mem = s.mem := rfl
@[simp] theorem State.setLoopPoint_fault (v : Word) : (s.setLoopPoint v).fault = s.fault := rfl
@[simp] theorem State.setLoopPoint_drawCount (v : Word) : (s.setLoopPoint v).drawCount = s.drawCount := rfl
@[simp] theorem State.setLoopPoint_reg (v : Word) (q : RegNo) :
    (s.setLoopPoint v).reg q = s.reg q := rfl
@[simp] theorem State.setLoopPoint_pixel (v : Word) (x y : Fin 64) :
    (s.setLoopPoint v).pixel x y = s.pixel x y := rfl
@[simp] theorem State.setLoopPoint_readByte (v : Word) (a : Nat) :
    (s.setLoopPoint v).readByte a = s.readByte a := rfl
@[simp] theorem State.setLoopPoint_key (v : Word) (j : Fin 6) :
    (s.setLoopPoint v).key j = s.key j := rfl

/-! ### `setKey` -/

@[simp] theorem State.setKey_regs (k : Fin 6) (v : Bool) : (s.setKey k v).regs = s.regs := rfl
@[simp] theorem State.setKey_pc (k : Fin 6) (v : Bool) : (s.setKey k v).pc = s.pc := rfl
@[simp] theorem State.setKey_dt (k : Fin 6) (v : Bool) : (s.setKey k v).dt = s.dt := rfl
@[simp] theorem State.setKey_fReg (k : Fin 6) (v : Bool) : (s.setKey k v).fReg = s.fReg := rfl
@[simp] theorem State.setKey_loopPoint (k : Fin 6) (v : Bool) : (s.setKey k v).loopPoint = s.loopPoint := rfl
@[simp] theorem State.setKey_keys (k : Fin 6) (v : Bool) : (s.setKey k v).keys = s.keys.set k.val v := rfl
@[simp] theorem State.setKey_fb (k : Fin 6) (v : Bool) : (s.setKey k v).fb = s.fb := rfl
@[simp] theorem State.setKey_mem (k : Fin 6) (v : Bool) : (s.setKey k v).mem = s.mem := rfl
@[simp] theorem State.setKey_fault (k : Fin 6) (v : Bool) : (s.setKey k v).fault = s.fault := rfl
@[simp] theorem State.setKey_drawCount (k : Fin 6) (v : Bool) : (s.setKey k v).drawCount = s.drawCount := rfl
@[simp] theorem State.setKey_reg (k : Fin 6) (v : Bool) (q : RegNo) :
    (s.setKey k v).reg q = s.reg q := rfl
@[simp] theorem State.setKey_pixel (k : Fin 6) (v : Bool) (x y : Fin 64) :
    (s.setKey k v).pixel x y = s.pixel x y := rfl
@[simp] theorem State.setKey_readByte (k : Fin 6) (v : Bool) (a : Nat) :
    (s.setKey k v).readByte a = s.readByte a := rfl

/-! ### `setFb` -/

@[simp] theorem State.setFb_regs (v : Framebuffer) : (s.setFb v).regs = s.regs := rfl
@[simp] theorem State.setFb_pc (v : Framebuffer) : (s.setFb v).pc = s.pc := rfl
@[simp] theorem State.setFb_dt (v : Framebuffer) : (s.setFb v).dt = s.dt := rfl
@[simp] theorem State.setFb_fReg (v : Framebuffer) : (s.setFb v).fReg = s.fReg := rfl
@[simp] theorem State.setFb_loopPoint (v : Framebuffer) : (s.setFb v).loopPoint = s.loopPoint := rfl
@[simp] theorem State.setFb_keys (v : Framebuffer) : (s.setFb v).keys = s.keys := rfl
@[simp] theorem State.setFb_fb (v : Framebuffer) : (s.setFb v).fb = v := rfl
@[simp] theorem State.setFb_mem (v : Framebuffer) : (s.setFb v).mem = s.mem := rfl
@[simp] theorem State.setFb_fault (v : Framebuffer) : (s.setFb v).fault = s.fault := rfl
@[simp] theorem State.setFb_drawCount (v : Framebuffer) : (s.setFb v).drawCount = s.drawCount := rfl
@[simp] theorem State.setFb_reg (v : Framebuffer) (q : RegNo) :
    (s.setFb v).reg q = s.reg q := rfl
@[simp] theorem State.setFb_readByte (v : Framebuffer) (a : Nat) :
    (s.setFb v).readByte a = s.readByte a := rfl
@[simp] theorem State.setFb_key (v : Framebuffer) (j : Fin 6) :
    (s.setFb v).key j = s.key j := rfl

/-! ### `setMem` -/

@[simp] theorem State.setMem_regs (v : Memory) : (s.setMem v).regs = s.regs := rfl
@[simp] theorem State.setMem_pc (v : Memory) : (s.setMem v).pc = s.pc := rfl
@[simp] theorem State.setMem_dt (v : Memory) : (s.setMem v).dt = s.dt := rfl
@[simp] theorem State.setMem_fReg (v : Memory) : (s.setMem v).fReg = s.fReg := rfl
@[simp] theorem State.setMem_loopPoint (v : Memory) : (s.setMem v).loopPoint = s.loopPoint := rfl
@[simp] theorem State.setMem_keys (v : Memory) : (s.setMem v).keys = s.keys := rfl
@[simp] theorem State.setMem_fb (v : Memory) : (s.setMem v).fb = s.fb := rfl
@[simp] theorem State.setMem_mem (v : Memory) : (s.setMem v).mem = v := rfl
@[simp] theorem State.setMem_fault (v : Memory) : (s.setMem v).fault = s.fault := rfl
@[simp] theorem State.setMem_drawCount (v : Memory) : (s.setMem v).drawCount = s.drawCount := rfl
@[simp] theorem State.setMem_reg (v : Memory) (q : RegNo) :
    (s.setMem v).reg q = s.reg q := rfl
@[simp] theorem State.setMem_pixel (v : Memory) (x y : Fin 64) :
    (s.setMem v).pixel x y = s.pixel x y := rfl
@[simp] theorem State.setMem_key (v : Memory) (j : Fin 6) :
    (s.setMem v).key j = s.key j := rfl

/-! ### `setFault` -/

@[simp] theorem State.setFault_regs (v : Option FaultRecord) : (s.setFault v).regs = s.regs := rfl
@[simp] theorem State.setFault_pc (v : Option FaultRecord) : (s.setFault v).pc = s.pc := rfl
@[simp] theorem State.setFault_dt (v : Option FaultRecord) : (s.setFault v).dt = s.dt := rfl
@[simp] theorem State.setFault_fReg (v : Option FaultRecord) : (s.setFault v).fReg = s.fReg := rfl
@[simp] theorem State.setFault_loopPoint (v : Option FaultRecord) : (s.setFault v).loopPoint = s.loopPoint := rfl
@[simp] theorem State.setFault_keys (v : Option FaultRecord) : (s.setFault v).keys = s.keys := rfl
@[simp] theorem State.setFault_fb (v : Option FaultRecord) : (s.setFault v).fb = s.fb := rfl
@[simp] theorem State.setFault_mem (v : Option FaultRecord) : (s.setFault v).mem = s.mem := rfl
@[simp] theorem State.setFault_fault (v : Option FaultRecord) : (s.setFault v).fault = v := rfl
@[simp] theorem State.setFault_drawCount (v : Option FaultRecord) : (s.setFault v).drawCount = s.drawCount := rfl
@[simp] theorem State.setFault_reg (v : Option FaultRecord) (q : RegNo) :
    (s.setFault v).reg q = s.reg q := rfl
@[simp] theorem State.setFault_pixel (v : Option FaultRecord) (x y : Fin 64) :
    (s.setFault v).pixel x y = s.pixel x y := rfl
@[simp] theorem State.setFault_readByte (v : Option FaultRecord) (a : Nat) :
    (s.setFault v).readByte a = s.readByte a := rfl
@[simp] theorem State.setFault_key (v : Option FaultRecord) (j : Fin 6) :
    (s.setFault v).key j = s.key j := rfl

/-! ### `setDrawCount` -/

@[simp] theorem State.setDrawCount_regs (v : Nat) : (s.setDrawCount v).regs = s.regs := rfl
@[simp] theorem State.setDrawCount_pc (v : Nat) : (s.setDrawCount v).pc = s.pc := rfl
@[simp] theorem State.setDrawCount_dt (v : Nat) : (s.setDrawCount v).dt = s.dt := rfl
@[simp] theorem State.setDrawCount_fReg (v : Nat) : (s.setDrawCount v).fReg = s.fReg := rfl
@[simp] theorem State.setDrawCount_loopPoint (v : Nat) : (s.setDrawCount v).loopPoint = s.loopPoint := rfl
@[simp] theorem State.setDrawCount_keys (v : Nat) : (s.setDrawCount v).keys = s.keys := rfl
@[simp] theorem State.setDrawCount_fb (v : Nat) : (s.setDrawCount v).fb = s.fb := rfl
@[simp] theorem State.setDrawCount_mem (v : Nat) : (s.setDrawCount v).mem = s.mem := rfl
@[simp] theorem State.setDrawCount_fault (v : Nat) : (s.setDrawCount v).fault = s.fault := rfl
@[simp] theorem State.setDrawCount_drawCount (v : Nat) : (s.setDrawCount v).drawCount = v := rfl
@[simp] theorem State.setDrawCount_reg (v : Nat) (q : RegNo) :
    (s.setDrawCount v).reg q = s.reg q := rfl
@[simp] theorem State.setDrawCount_pixel (v : Nat) (x y : Fin 64) :
    (s.setDrawCount v).pixel x y = s.pixel x y := rfl
@[simp] theorem State.setDrawCount_readByte (v : Nat) (a : Nat) :
    (s.setDrawCount v).readByte a = s.readByte a := rfl
@[simp] theorem State.setDrawCount_key (v : Nat) (j : Fin 6) :
    (s.setDrawCount v).key j = s.key j := rfl

/-! ### Reading what was written -/

/-- A register reads back what was written to it, and no other register changes. -/
theorem State.reg_setReg (r q : RegNo) (v : Byte) : (s.setReg r v).reg q = if q = r then v else s.reg q := by
  by_cases h : q = r
  · subst h; simp [State.reg]
  · have hn : r.toNat ≠ q.toNat := fun e => h (BitVec.eq_of_toNat_eq e.symm)
    simp [State.reg, h, hn]

@[simp] theorem State.reg_setReg_self (r : RegNo) (v : Byte) : (s.setReg r v).reg r = v := by
  simp [State.reg_setReg]

theorem State.reg_setReg_ne {r q : RegNo} (h : q ≠ r) (v : Byte) : (s.setReg r v).reg q = s.reg q := by
  simp [State.reg_setReg, h]

/-- A key latch reads back what was written to it, and no other latch changes. -/
theorem State.key_setKey (k j : Fin 6) (v : Bool) : (s.setKey k v).key j = if j = k then v else s.key j := by
  by_cases h : j = k
  · subst h; simp [State.key]
  · have hn : k.val ≠ j.val := fun e => h (Fin.ext e.symm)
    simp [State.key, h, hn]

/-- A pixel reads back what was written to it, and no other pixel changes. -/
theorem Framebuffer.pixel_setPixel (fb : Framebuffer) (x y x' y' : Fin 64) (c : Byte) :
    (fb.setPixel x y c).pixel x' y' = if x' = x ∧ y' = y then c else fb.pixel x' y' := by
  by_cases hx : x' = x
  · subst hx
    by_cases hy : y' = y
    · subst hy; simp [Framebuffer.setPixel, Framebuffer.pixel]
    · have hn : y.val ≠ y'.val := fun e => hy (Fin.ext e.symm)
      simp [Framebuffer.setPixel, Framebuffer.pixel, hy, hn]
  · have hn : x.val ≠ x'.val := fun e => hx (Fin.ext e.symm)
    simp [Framebuffer.setPixel, Framebuffer.pixel, hx, hn]

@[simp] theorem Framebuffer.pixel_blank (x y : Fin 64) : Framebuffer.blank.pixel x y = 0 := by
  simp [Framebuffer.blank, Framebuffer.pixel]

/-- Every pixel is 0 after reset. -/
@[simp] theorem State.reset_pixel (x y : Fin 64) : State.reset.pixel x y = 0 := Framebuffer.pixel_blank x y

@[simp] theorem State.pixel_setFb (fb : Framebuffer) (x y : Fin 64) : (s.setFb fb).pixel x y = fb.pixel x y := rfl

@[simp] theorem State.readByte_setMem (m : Memory) (a : Nat) : (s.setMem m).readByte a = m.read a := rfl

end Sys2Proof.Machine
end

