-- ==== Sys2Proof/Laws/Blit.lean ====
section
/-! SUPPORT. What a blit does to one pixel: the loops of 44_blit.md, resolved. -/

namespace Sys2Proof.Machine

/-- A pixel lies `k` beyond a position exactly where its coordinate is the position plus `k`, reduced modulo 64. -/
theorem eq_coord_iff (p : Fin 64) (o k : Nat) (hk : k < 64) : p = coord (o + k) ↔ torusOffset p o = k := by
  rw [Fin.ext_iff]
  simp only [coord, torusOffset]
  have := p.isLt
  omega

/-- Only the pixel plotted changes, and only where there is ink. -/
theorem pixel_plot (fb : Framebuffer) (x y : Nat) (c : Option Byte) (px py : Fin 64) :
    (plot fb x y c).pixel px py = if px = coord x ∧ py = coord y then c.getD (fb.pixel px py) else fb.pixel px py := by
  cases c with
  | none => simp [plot]
  | some v => simp [plot, Framebuffer.pixel_setPixel]

/-- The nibble of glyph pixel (column `c`, row `j`). -/
def glyphNibble (g : List Byte) (c j : Nat) : Nibble :=
  if c % 2 = 0 then highNibble (glyphByte g (c / 2) j) else lowNibble (glyphByte g (c / 2) j)

/-- The pixel at `(px, py)` after a glyph byte of column group `i` and row `j` is drawn for a glyph at `(x, y)`. -/
theorem pixel_plotByte (ink : Ink) (g : List Byte) (x y i j : Nat) (hi : i < 4) (hj : j < 8) (fb : Framebuffer)
    (px py : Fin 64) :
    (plotByte ink (glyphByte g i j) (x + 2 * i) (y + j) fb).pixel px py =
      if torusOffset px x / 2 = i ∧ torusOffset py y = j
      then (ink (glyphNibble g (torusOffset px x) j)).getD (fb.pixel px py) else fb.pixel px py := by
  unfold plotByte
  rw [pixel_plot, pixel_plot, show x + 2 * i + 1 = x + (2 * i + 1) by omega]
  simp only [eq_coord_iff py y j (by omega), eq_coord_iff px x (2 * i) (by omega),
    eq_coord_iff px x (2 * i + 1) (by omega)]
  by_cases hr : torusOffset py y = j
  · by_cases h0 : torusOffset px x = 2 * i
    · simp [h0, hr, glyphNibble]
    · by_cases h1 : torusOffset px x = 2 * i + 1
      · have e : (2 * i + 1) % 2 ≠ 0 := by omega
        have e2 : (2 * i + 1) / 2 = i := by omega
        simp [h1, hr, glyphNibble, e2]
      · have e : torusOffset px x / 2 ≠ i := by omega
        simp [h0, h1, e]
  · simp [hr]

/-- The pixel at `(px, py)` after rows 0 to `n - 1` of one column group are drawn. -/
theorem pixel_blitGroup (ink : Ink) (g : List Byte) (x y i n : Nat) (hi : i < 4) (hn : n ≤ 8) (fb : Framebuffer)
    (px py : Fin 64) :
    (blitGroup ink g x y i n fb).pixel px py =
      if torusOffset px x / 2 = i ∧ torusOffset py y < n
      then (ink (glyphNibble g (torusOffset px x) (torusOffset py y))).getD (fb.pixel px py) else fb.pixel px py := by
  unfold blitGroup
  induction n with
  | zero => simp
  | succ n ih =>
    rw [List.range_succ, List.foldl_append, List.foldl_cons, List.foldl_nil,
      pixel_plotByte ink g x y i n hi (by omega), ih (by omega)]
    by_cases hc : torusOffset px x / 2 = i
    · by_cases hr : torusOffset py y = n
      · simp [hc, hr]
      · have e : torusOffset py y < n + 1 ↔ torusOffset py y < n := by omega
        simp [hc, hr, e]
    · simp [hc]

/-- The pixel at `(px, py)` after one glyph is drawn at `(x, y)`: inside the 8 by 8 window the ink decides, outside it
nothing changes (44_blit.md R102). -/
theorem pixel_blit (ink : Ink) (g : List Byte) (x y : Nat) (fb : Framebuffer) (px py : Fin 64) :
    (blit ink g x y fb).pixel px py =
      if torusOffset px x < 8 ∧ torusOffset py y < 8
      then (ink (glyphNibble g (torusOffset px x) (torusOffset py y))).getD (fb.pixel px py) else fb.pixel px py := by
  have key : ∀ n, n ≤ 4 → ((List.range n).foldl (fun fb i => blitGroup ink g x y i 8 fb) fb).pixel px py =
      if torusOffset px x / 2 < n ∧ torusOffset py y < 8
      then (ink (glyphNibble g (torusOffset px x) (torusOffset py y))).getD (fb.pixel px py) else fb.pixel px py := by
    intro n hn
    induction n with
    | zero => simp
    | succ n ih =>
      rw [List.range_succ, List.foldl_append, List.foldl_cons, List.foldl_nil,
        pixel_blitGroup ink g x y n 8 (by omega) (by omega), ih (by omega)]
      by_cases hc : torusOffset px x / 2 = n
      · simp [hc]
      · have e : torusOffset px x / 2 < n + 1 ↔ torusOffset px x / 2 < n := by omega
        simp [hc, e]
  have h := key 4 (by omega)
  have e : torusOffset px x / 2 < 4 ↔ torusOffset px x < 8 := by omega
  simpa only [blit, e] using h

/-- A glyph drawn beside the ones before it leaves their columns alone: up to eight glyphs fit side by side. -/
theorem torusOffset_add (p : Fin 64) (x k : Nat) (hk : k ≤ 64) :
    torusOffset p (x + k) = if k ≤ torusOffset p x then torusOffset p x - k else torusOffset p x + 64 - k := by
  unfold torusOffset
  have := p.isLt
  split <;> omega

/-- The pixel at `(px, py)` after glyphs are drawn side by side from `(x, y)` on (44_blit.md R107). -/
theorem pixel_blitRow (ink : Ink) (gs : List (List Byte)) (x y : Nat) (hl : gs.length ≤ 8) (fb : Framebuffer)
    (px py : Fin 64) :
    (blitRow ink x y gs fb).pixel px py =
      if torusOffset px x < 8 * gs.length ∧ torusOffset py y < 8
      then (ink (glyphNibble (gs.getD (torusOffset px x / 8) []) (torusOffset px x % 8) (torusOffset py y))).getD
        (fb.pixel px py)
      else fb.pixel px py := by
  induction gs generalizing x fb with
  | nil => simp [blitRow]
  | cons g gs ih =>
    simp only [List.length_cons] at hl
    rw [blitRow, ih (x + 8) (by omega), pixel_blit, torusOffset_add px x 8 (by omega)]
    have hb : torusOffset px x < 64 := Nat.mod_lt _ (by decide)
    simp only [List.length_cons]
    by_cases hr : torusOffset py y < 8
    · by_cases h8 : torusOffset px x < 8
      · have e1 : ¬ 8 ≤ torusOffset px x := by omega
        have e2 : ¬ torusOffset px x + 56 < 8 * gs.length := by omega
        have e3 : torusOffset px x < 8 * (gs.length + 1) := by omega
        have e4 : torusOffset px x / 8 = 0 := by omega
        have e5 : torusOffset px x % 8 = torusOffset px x := by omega
        simp [h8, hr, e1, e2, e3, e4, e5]
      · have e1 : 8 ≤ torusOffset px x := by omega
        have e3 : torusOffset px x < 8 * (gs.length + 1) ↔ torusOffset px x - 8 < 8 * gs.length := by omega
        have e4 : torusOffset px x / 8 = (torusOffset px x - 8) / 8 + 1 := by omega
        have e5 : (torusOffset px x - 8) % 8 = torusOffset px x % 8 := by omega
        simp [h8, hr, e1, e3, e4, e5]
    · simp [hr]

end Sys2Proof.Machine
end

