-- ==== Sys2Proof/Laws/Decode.lean ====
section
/-! SUPPORT. The fields of a word and the words put together from fields, as numbers; decoding of each format. -/

namespace Sys2Proof

/-- Concatenation as a number (00_scope.md R10: the left part is the more significant). -/
theorem append_toNat {n m : Nat} (a : BitVec n) (b : BitVec m) : (a ++ b).toNat = a.toNat * 2 ^ m + b.toNat := by
  rw [BitVec.toNat_append, ← Nat.shiftLeft_add_eq_or_of_lt b.isLt, Nat.shiftLeft_eq]

/-! ### Fields as numbers -/

theorem fieldD1_toNat (op : Word) : (fieldD1 op).toNat = op.toNat / 4096 := by
  simp [fieldD1, Nat.shiftRight_eq_div_pow]; omega

theorem fieldD2_toNat (op : Word) : (fieldD2 op).toNat = op.toNat / 256 % 16 := by
  simp [fieldD2, Nat.shiftRight_eq_div_pow]

theorem fieldD3_toNat (op : Word) : (fieldD3 op).toNat = op.toNat / 16 % 16 := by
  simp [fieldD3, Nat.shiftRight_eq_div_pow]

theorem fieldD4_toNat (op : Word) : (fieldD4 op).toNat = op.toNat % 16 := by
  simp [fieldD4]

theorem fieldNN_toNat (op : Word) : (fieldNN op).toNat = op.toNat % 256 := by
  simp [fieldNN]

theorem fieldNNN_toNat (op : Word) : (fieldNNN op).toNat = op.toNat % 4096 := by
  simp [fieldNNN]

theorem highByte_toNat (op : Word) : (highByte op).toNat = op.toNat / 256 := by
  simp [highByte, Nat.shiftRight_eq_div_pow]; omega

theorem lowByte_toNat (op : Word) : (lowByte op).toNat = op.toNat % 256 := by
  simp [lowByte]

/-! ### Words as numbers -/

theorem wordOfBytes_toNat (hi lo : Byte) : (wordOfBytes hi lo).toNat = hi.toNat * 256 + lo.toNat :=
  append_toNat hi lo

theorem ofNibbles_toNat (a b c d : Nibble) :
    (ofNibbles a b c d).toNat = a.toNat * 4096 + b.toNat * 256 + c.toNat * 16 + d.toNat := by
  have h1 := append_toNat (a ++ b ++ c) d
  have h2 := append_toNat (a ++ b) c
  have h3 := append_toNat a b
  rw [h2, h3] at h1
  exact h1.trans (by omega)

theorem ofNibblesByte_toNat (a b : Nibble) (nn : Byte) :
    (ofNibblesByte a b nn).toNat = a.toNat * 4096 + b.toNat * 256 + nn.toNat := by
  have h1 := append_toNat (a ++ b) nn
  rw [append_toNat a b] at h1
  exact h1.trans (by omega)

theorem jpWord_toNat (nnn : Addr12) : ((0x1#4 ++ nnn : Word)).toNat = 4096 + nnn.toNat :=
  append_toNat 0x1#4 nnn

/-- The two bytes of a word make the word. -/
theorem wordOfBytes_split (op : Word) : wordOfBytes (highByte op) (lowByte op) = op := by
  apply BitVec.eq_of_toNat_eq
  rw [wordOfBytes_toNat, highByte_toNat, lowByte_toNat]; omega

/-! ### Fields of words put together from fields -/

@[simp] theorem fieldD1_ofNibbles (a b c d : Nibble) : fieldD1 (ofNibbles a b c d) = a := by
  apply BitVec.eq_of_toNat_eq; rw [fieldD1_toNat, ofNibbles_toNat]; omega

@[simp] theorem fieldD2_ofNibbles (a b c d : Nibble) : fieldD2 (ofNibbles a b c d) = b := by
  apply BitVec.eq_of_toNat_eq; rw [fieldD2_toNat, ofNibbles_toNat]; omega

@[simp] theorem fieldD3_ofNibbles (a b c d : Nibble) : fieldD3 (ofNibbles a b c d) = c := by
  apply BitVec.eq_of_toNat_eq; rw [fieldD3_toNat, ofNibbles_toNat]; omega

@[simp] theorem fieldD4_ofNibbles (a b c d : Nibble) : fieldD4 (ofNibbles a b c d) = d := by
  apply BitVec.eq_of_toNat_eq; rw [fieldD4_toNat, ofNibbles_toNat]; omega

@[simp] theorem fieldD1_ofNibblesByte (a b : Nibble) (nn : Byte) : fieldD1 (ofNibblesByte a b nn) = a := by
  apply BitVec.eq_of_toNat_eq; rw [fieldD1_toNat, ofNibblesByte_toNat]; omega

@[simp] theorem fieldD2_ofNibblesByte (a b : Nibble) (nn : Byte) : fieldD2 (ofNibblesByte a b nn) = b := by
  apply BitVec.eq_of_toNat_eq; rw [fieldD2_toNat, ofNibblesByte_toNat]; omega

@[simp] theorem fieldNN_ofNibblesByte (a b : Nibble) (nn : Byte) : fieldNN (ofNibblesByte a b nn) = nn := by
  apply BitVec.eq_of_toNat_eq; rw [fieldNN_toNat, ofNibblesByte_toNat]; omega

@[simp] theorem fieldD1_jpWord (nnn : Addr12) : fieldD1 (0x1#4 ++ nnn) = 0x1 := by
  apply BitVec.eq_of_toNat_eq; rw [fieldD1_toNat, jpWord_toNat]; simp; omega

@[simp] theorem fieldNNN_jpWord (nnn : Addr12) : fieldNNN (0x1#4 ++ nnn) = nnn := by
  apply BitVec.eq_of_toNat_eq; rw [fieldNNN_toNat, jpWord_toNat]; omega

/-! ### Words put together from their own fields -/

theorem ofNibbles_fields (op : Word) : ofNibbles (fieldD1 op) (fieldD2 op) (fieldD3 op) (fieldD4 op) = op := by
  apply BitVec.eq_of_toNat_eq
  rw [ofNibbles_toNat, fieldD1_toNat, fieldD2_toNat, fieldD3_toNat, fieldD4_toNat]; omega

theorem ofNibblesByte_fields (op : Word) : ofNibblesByte (fieldD1 op) (fieldD2 op) (fieldNN op) = op := by
  apply BitVec.eq_of_toNat_eq
  rw [ofNibblesByte_toNat, fieldD1_toNat, fieldD2_toNat, fieldNN_toNat]; omega

/-- The sub-opcode read from a word of format `N` is the one it was built with. -/
@[simp] theorem fieldSubop_ofSubop (l : SubopLayout) (f s n : Nibble) :
    fieldSubop l (ofSubop l f s n) = some s.toNat := by
  cases l <;> simp [fieldSubop, ofSubop]

@[simp] theorem fieldD1_ofSubop (l : SubopLayout) (f s n : Nibble) : fieldD1 (ofSubop l f s n) = f := by
  cases l <;> simp [ofSubop]

@[simp] theorem fieldD4_ofSubop (l : SubopLayout) (f s n : Nibble) : fieldD4 (ofSubop l f s n) = n := by
  cases l <;> simp [ofSubop]

end Sys2Proof
end

