-- ==== Sys2Proof/Laws/Flags.lean ====
section
/-! SUPPORT. What each condition of 42_branch_skip.md says of the two values, as numbers. -/

namespace Sys2Proof.Machine

theorem condEqual_iff (y z : Byte) : condEqual y z = true ↔ y = z := by
  rw [condEqual, decide_eq_true_iff, BitVec.toNat_inj]

theorem condGreater_iff (y z : Byte) : condGreater y z = true ↔ z.toNat < y.toNat := by
  rw [condGreater, decide_eq_true_iff]

theorem ovA_iff (y z : Byte) : ovA y z = true ↔ y.toNat < z.toNat ∧ z.toNat < (y.toNat + 8) % 256 := by
  rw [ovA, Bool.and_eq_true, decide_eq_true_iff, decide_eq_true_iff]

theorem ovB_iff (y z : Byte) :
    ovB y z = true ↔ y.toNat < (z.toNat + 8) % 64 ∧ (z.toNat + 8) % 64 < (y.toNat + 8) % 256 := by
  rw [ovB, Bool.and_eq_true, decide_eq_true_iff, decide_eq_true_iff, ovT]

theorem condCollide_iff (y z : Byte) : condCollide y z = true ↔ ovA y z = true ∨ ovB y z = true ∨ y = z := by
  rw [condCollide, Bool.or_eq_true, Bool.or_eq_true, condEqual_iff, or_assoc]

end Sys2Proof.Machine
end

