-- ==== Sys2Proof/Laws/Ops.lean ====
section
/-! SUPPORT. What the shared operations do: the advance, the skip, fault entry, each said once. -/

namespace Sys2Proof.Machine

variable (s : State)

@[simp] theorem State.advance_pc : s.advance.pc = s.pc + 2 := rfl

/-- The advance as a number (40_step_dispatch.md R62). -/
theorem State.advance_pc_toNat : s.advance.pc.toNat = (s.pc.toNat + 2) % 65536 := by
  simp [BitVec.toNat_add]

/-- A skip writes `pc` and nothing else. -/
theorem State.skipIf_eq (c : Bool) : s.skipIf c = s.setPc (if c then s.pc + 2 else s.pc) := by
  cases c <;> rfl

/-- Fault entry writes the latch and nothing else. -/
theorem State.raise_eq (k : FaultKind) (op at' : Option Word) :
    s.raise k op at' = s.setFault (some ⟨k, op, at'⟩) := rfl

/-- A fault of the execute phase after the advance records the address of the fetch. -/
theorem State.raiseIn_advance (k : FaultKind) (i : Instr) :
    s.advance.raiseIn k i = s.advance.setFault (some ⟨k, some (encode i), some s.pc⟩) := by
  simp [State.raiseIn, State.raise, State.advance]

/-- A key skip either takes the fault or skips: it writes the latch or `pc`, and nothing else. -/
theorem State.keySkip_cases (i : Instr) (n : RegNo) (v : Bool) :
    (6 ≤ s.regNat n ∧ s.keySkip i n v = s.raiseIn .invalidKeyIndex i) ∨
      ∃ h : s.regNat n < 6, s.keySkip i n v = s.skipIf (s.key ⟨s.regNat n, h⟩ == v) := by
  unfold State.keySkip State.keyIndex
  by_cases h : s.regNat n < 6
  · exact .inr ⟨h, by simp [h]⟩
  · exact .inl ⟨by omega, by simp [h]⟩

end Sys2Proof.Machine
end

