-- ==== Sys2Proof/Laws/Step.lean ====
section
/-! SUPPORT. What a fetch, an instruction and a step can do, each said once. -/

namespace Sys2Proof.Machine

/-- Inside memory the fetch is the two bytes at `pc`, the high one first. -/
theorem State.fetchIn_eq_some {g : Geometry} {s : State} (h : s.pc.toNat + 1 < g.memSize) :
    s.fetchIn g = some (wordOfBytes (s.readByte s.pc.toNat) (s.readByte (s.pc.toNat + 1))) := by
  rw [State.fetchIn, Memory.readRange_eq_some (by omega)]
  rfl

/-- Outside memory there is no fetch. -/
theorem State.fetchIn_eq_none {g : Geometry} {s : State} (h : g.memSize ≤ s.pc.toNat + 1) : s.fetchIn g = none := by
  rw [State.fetchIn, Memory.readRange_eq_none (by omega)]

theorem State.fetch_eq_some {s : State} (h : s.CanFetch) :
    s.fetch = some (wordOfBytes (s.readByte s.pc.toNat) (s.readByte (s.pc.toNat + 1))) := State.fetchIn_eq_some h

theorem State.fetch_eq_none {s : State} (h : ¬ s.CanFetch) : s.fetch = none :=
  State.fetchIn_eq_none (Nat.le_of_not_lt h)

/-- The fetch reads `pc` and memory and nothing else. -/
theorem State.fetch_congr {s t : State} (hp : t.pc = s.pc) (hm : t.mem = s.mem) : t.fetch = s.fetch := by
  unfold State.fetch State.fetchIn
  rw [hp, hm]

/-- A state in which memory ends at or below `pc + 1` cannot fetch. -/
theorem State.fetch_isSome_iff (s : State) : s.fetch.isSome ↔ s.CanFetch := by
  by_cases h : s.CanFetch
  · simp [State.fetch_eq_some h, h]
  · simp [State.fetch_eq_none h, h]

/-- Memory has at least 513 bytes (00_scope.md R7), so a `pc` below 512 can always be fetched from. -/
theorem State.canFetch_of_small {s : State} (h : s.pc.toNat < 512) : s.CanFetch := by
  have := Config.geometry_wellFormed
  unfold State.CanFetch
  omega

/-- Every instruction has a next state, whatever the state: none of the 28 meanings stops (60_exceptions.md R125). -/
theorem exec_next (i : Instr) (s : State) : ∃ t, exec i s = .next t := by
  cases i <;> exact ⟨_, rfl⟩

/-- The ways a step can end: halted, a fetch fault, an illegal word, or the execute phase of the decoded word. -/
theorem step_cases (s : State) :
    (∃ r, s.fault = some r ∧ step s = .fault (.halted r)) ∨
      (s.Running ∧ ¬ s.CanFetch ∧ step s = .next s.fetchFault) ∨
      (∃ op, s.Running ∧ s.CanFetch ∧ s.fetch = some op ∧ decode op = none ∧ step s = .next (s.illegalOpcode op)) ∨
      ∃ op i, s.Running ∧ s.CanFetch ∧ s.fetch = some op ∧ decode op = some i ∧ step s = exec i s.advance := by
  unfold step
  cases hf : s.fault with
  | some r => exact .inl ⟨r, rfl, rfl⟩
  | none =>
    right
    by_cases hc : s.CanFetch
    · right
      cases hd : decode (wordOfBytes (s.readByte s.pc.toNat) (s.readByte (s.pc.toNat + 1))) with
      | none => exact .inl ⟨_, hf, hc, State.fetch_eq_some hc, hd, by simp [State.fetch_eq_some hc, hd]⟩
      | some i => exact .inr ⟨_, i, hf, hc, State.fetch_eq_some hc, hd, by simp [State.fetch_eq_some hc, hd]⟩
    · exact .inl ⟨hf, hc, by simp [State.fetch_eq_none hc]⟩

end Sys2Proof.Machine
end

