-- ==== Sys2Proof/Laws/HostOps.lean ====
section
/-! SUPPORT. What an operation of the host and a run of them can do. -/

namespace Sys2Proof.Machine

variable {op : HostOp} {s t : State}

/-- An operation has a next state, or the core is halted and it is refused with the record, or it breaks the host's
duty. -/
theorem hostOp_cases (op : HostOp) (s : State) :
    (∃ t, hostOp op s = .next t) ∨ (∃ r, s.fault = some r ∧ hostOp op s = .fault (.halted r)) ∨
      (op.wellFormed = false ∧ ∃ r, hostOp op s = .refused r) := by
  have halt : ∀ u : State, (∃ t, s.unlessHalted (.next u) = .next t) ∨
      ∃ r, s.fault = some r ∧ s.unlessHalted (.next u) = .fault (.halted r) := by
    intro u
    cases h : s.fault with
    | none => exact .inl ⟨u, by simp [State.unlessHalted, h]⟩
    | some r => exact .inr ⟨r, rfl, by simp [State.unlessHalted, h]⟩
  have key : ∀ (k : Nat) (v : Bool), (∃ t, s.writeKey k v = .next t) ∨
      (∃ r, s.fault = some r ∧ s.writeKey k v = .fault (.halted r)) ∨
      (decide (k < 6) = false ∧ ∃ r, s.writeKey k v = .refused r) := by
    intro k v
    by_cases h : k < 6
    · simpa [State.writeKey, h] using halt (s.setKey ⟨k, h⟩ v)
    · exact .inr (.inr ⟨by simp [h], _, by simp only [State.writeKey, h]; rfl⟩)
  cases op with
  | reset => exact .inl ⟨_, rfl⟩
  | getScreen => exact .inl ⟨_, rfl⟩
  | load bytes a b => exact (halt _).imp id .inl
  | setPc a => exact (halt _).imp id .inl
  | tickDt => exact (halt _).imp id .inl
  | keyDown k => exact key k true
  | keyUp k => exact key k false
  | tick =>
    rcases step_cases s with ⟨r, hr, h⟩ | ⟨_, _, h⟩ | ⟨_, _, _, _, _, h⟩ | ⟨_, i, _, _, _, _, h⟩
    · exact .inr (.inl ⟨r, hr, h⟩)
    · exact .inl ⟨_, h⟩
    · exact .inl ⟨_, h⟩
    · obtain ⟨t, ht⟩ := exec_next i s.advance
      exact .inl ⟨t, h.trans ht⟩

/-- The call of an operation that has a next state. -/
theorem hostCall_of_next (h : hostOp op s = .next t) : hostCall op s = .next (t, op.result t) := by
  rw [hostCall, h]

/-- The call of an operation that a halted core refuses. -/
theorem hostCall_of_halted {r : FaultRecord} (h : hostOp op s = .fault (.halted r)) :
    hostCall op s = .next (s, .failed r) := by
  rw [hostCall, h]

/-- A run goes on from the state its first operation leaves. -/
theorem hostRun_cons {a : HostResult} (h : hostCall op s = .next (t, a)) (ops : List HostOp) :
    hostRun (op :: ops) s = hostRun ops t := by
  rw [hostRun, h]

end Sys2Proof.Machine
end

