-- ==== Sys2Proof/Laws/PerInstr.lean ====
section
/-! SUPPORT. The family `TableRow`: the word of each instruction selects its own row of the opcode map. -/

namespace Sys2Proof.Laws.TableRow

/-- The row of the opcode map (30_encoding.md R50) that an instruction belongs to. -/
def rowOf (i : Instr) : OpcodeRow :=
  match i with
  | .nop => ⟨0x0000, 0xFFFF⟩
  | .cls => ⟨0x000C, 0xFFFF⟩
  | .jp _ => ⟨0x1000, 0xF000⟩
  | .ldi _ _ => ⟨0x2000, 0xF000⟩
  | .addi _ _ => ⟨0x3000, 0xF000⟩
  | .subi _ _ => ⟨0x4000, 0xF000⟩
  | .mov _ _ => ⟨0x5000, 0xFF00⟩
  | .add _ _ => ⟨0x5100, 0xFF00⟩
  | .sub _ _ => ⟨0x5200, 0xFF00⟩
  | .mul _ _ => ⟨0x5300, 0xFF00⟩
  | .div _ _ => ⟨0x5400, 0xFF00⟩
  | .se _ _ => ⟨0x5500, 0xFF00⟩
  | .sne _ _ => ⟨0x5600, 0xFF00⟩
  | .sgt _ _ => ⟨0x5700, 0xFF00⟩
  | .sova _ _ => ⟨0x5800, 0xFF00⟩
  | .sovb _ _ => ⟨0x5900, 0xFF00⟩
  | .scol _ _ => ⟨0x5A00, 0xFF00⟩
  | .setf _ => ⟨0x6000, 0xFFF0⟩
  | .setfr _ => ⟨0x6010, 0xFFF0⟩
  | .rnd _ => ⟨0x7000, 0xFFF0⟩
  | .lpr _ => ⟨0x7010, 0xFFF0⟩
  | .lpi _ => ⟨0x8000, 0xFFF0⟩
  | .skp _ => ⟨0x9000, 0xFFF0⟩
  | .sknp _ => ⟨0x9010, 0xFFF0⟩
  | .rsk _ _ _ => ⟨0xA000, 0xF000⟩
  | .drw _ _ _ => ⟨0xD000, 0xF000⟩
  | .num _ _ _ => ⟨0xE000, 0xF000⟩
  | .dig _ _ _ => ⟨0xF000, 0xF000⟩

/-- The row is one of the 28, and the instruction's word selects it. -/
def Statement (i : Instr) : Prop := rowOf i ∈ opcodeRows ∧ (rowOf i).selects (encode i) = true

/-- AND works nibble by nibble. -/
theorem ofNibbles_and (a b c d a' b' c' d' : Nibble) :
    ofNibbles a b c d &&& ofNibbles a' b' c' d' = ofNibbles (a &&& a') (b &&& b') (c &&& c') (d &&& d') := by
  have h1 := BitVec.and_append (x₁ := a) (x₂ := a') (y₁ := b) (y₂ := b')
  have h2 := BitVec.and_append (x₁ := a ++ b) (x₂ := a' ++ b') (y₁ := c) (y₂ := c')
  have h3 := BitVec.and_append (x₁ := a ++ b ++ c) (x₂ := a' ++ b' ++ c') (y₁ := d) (y₂ := d')
  rw [h2, h1] at h3
  exact h3

theorem and_ones (a : Nibble) : a &&& 0xF = a := BitVec.and_allOnes

theorem and_none (a : Nibble) : a &&& 0x0 = 0x0 := BitVec.and_zero

/-- The rows that fix the family alone. -/
theorem family_row (f x y z : Nibble) (p : Word) (hp : ofNibbles f 0 0 0 = p) (hm : ⟨p, 0xF000⟩ ∈ opcodeRows) :
    ⟨p, 0xF000⟩ ∈ opcodeRows ∧ (⟨p, 0xF000⟩ : OpcodeRow).selects (ofNibbles f x y z) = true := by
  have h := ofNibbles_and f x y z 0xF 0 0 0
  rw [show ofNibbles 0xF 0 0 0 = 0xF000 by decide, and_ones, and_none, and_none, and_none] at h
  exact ⟨hm, by rw [OpcodeRow.selects, h, hp, beq_self_eq_true]⟩

/-- The rows of family 5. -/
theorem register_row (f s y z : Nibble) (p : Word) (hp : ofNibbles f s 0 0 = p) (hm : ⟨p, 0xFF00⟩ ∈ opcodeRows) :
    ⟨p, 0xFF00⟩ ∈ opcodeRows ∧ (⟨p, 0xFF00⟩ : OpcodeRow).selects (ofNibbles f s y z) = true := by
  have h := ofNibbles_and f s y z 0xF 0xF 0 0
  rw [show ofNibbles 0xF 0xF 0 0 = 0xFF00 by decide, and_ones, and_ones, and_none, and_none] at h
  exact ⟨hm, by rw [OpcodeRow.selects, h, hp, beq_self_eq_true]⟩

/-- The rows of format `N`. -/
theorem nibble_row (f s n : Nibble) (p : Word) (hp : ofNibbles f 0 s 0 = p) (hm : ⟨p, 0xFFF0⟩ ∈ opcodeRows) :
    ⟨p, 0xFFF0⟩ ∈ opcodeRows ∧ (⟨p, 0xFFF0⟩ : OpcodeRow).selects (ofSubop subopLayout f s n) = true := by
  have h := ofNibbles_and f 0 s n 0xF 0xF 0xF 0
  rw [show ofNibbles 0xF 0xF 0xF 0 = 0xFFF0 by decide, and_ones, and_ones, and_ones, and_none] at h
  exact ⟨hm, by show (ofNibbles f 0 s n &&& 0xFFF0 == p) = true; rw [h, hp, beq_self_eq_true]⟩

/-- A word of format `I` is one of four nibbles. -/
theorem ofNibblesByte_eq (f x : Nibble) (nn : Byte) :
    ofNibblesByte f x nn = ofNibbles f x (fieldD3 (ofNibblesByte f x nn)) (fieldD4 (ofNibblesByte f x nn)) := by
  have h := ofNibbles_fields (ofNibblesByte f x nn)
  rw [fieldD1_ofNibblesByte, fieldD2_ofNibblesByte] at h
  exact h.symm

/-- The rows of format `I`. -/
theorem immediate_row (f x : Nibble) (nn : Byte) (p : Word) (hp : ofNibbles f 0 0 0 = p)
    (hm : ⟨p, 0xF000⟩ ∈ opcodeRows) :
    ⟨p, 0xF000⟩ ∈ opcodeRows ∧ (⟨p, 0xF000⟩ : OpcodeRow).selects (ofNibblesByte f x nn) = true := by
  rw [ofNibblesByte_eq]; exact family_row f x _ _ p hp hm

theorem nop : Statement .nop := ⟨by decide, by decide⟩

theorem cls : Statement .cls := ⟨by decide, by decide⟩

theorem jp (nnn : Addr12) : Statement (.jp nnn) := by
  have h := ofNibbles_fields (0x1#4 ++ nnn)
  rw [fieldD1_jpWord] at h
  show ⟨0x1000, 0xF000⟩ ∈ opcodeRows ∧ (⟨0x1000, 0xF000⟩ : OpcodeRow).selects (0x1#4 ++ nnn) = true
  rw [← h]
  exact family_row 0x1 _ _ _ 0x1000 (by decide) (by decide)

theorem ldi (x : RegNo) (nn : Byte) : Statement (.ldi x nn) :=
  immediate_row 0x2 x nn 0x2000 (by decide) (by decide)

theorem addi (x : RegNo) (nn : Byte) : Statement (.addi x nn) :=
  immediate_row 0x3 x nn 0x3000 (by decide) (by decide)

theorem subi (x : RegNo) (nn : Byte) : Statement (.subi x nn) :=
  immediate_row 0x4 x nn 0x4000 (by decide) (by decide)

theorem mov (y z : RegNo) : Statement (.mov y z) := register_row 0x5 0x0 y z 0x5000 (by decide) (by decide)

theorem add (y z : RegNo) : Statement (.add y z) := register_row 0x5 0x1 y z 0x5100 (by decide) (by decide)

theorem sub (y z : RegNo) : Statement (.sub y z) := register_row 0x5 0x2 y z 0x5200 (by decide) (by decide)

theorem mul (y z : RegNo) : Statement (.mul y z) := register_row 0x5 0x3 y z 0x5300 (by decide) (by decide)

theorem div (y z : RegNo) : Statement (.div y z) := register_row 0x5 0x4 y z 0x5400 (by decide) (by decide)

theorem se (y z : RegNo) : Statement (.se y z) := register_row 0x5 0x5 y z 0x5500 (by decide) (by decide)

theorem sne (y z : RegNo) : Statement (.sne y z) := register_row 0x5 0x6 y z 0x5600 (by decide) (by decide)

theorem sgt (y z : RegNo) : Statement (.sgt y z) := register_row 0x5 0x7 y z 0x5700 (by decide) (by decide)

theorem sova (y z : RegNo) : Statement (.sova y z) := register_row 0x5 0x8 y z 0x5800 (by decide) (by decide)

theorem sovb (y z : RegNo) : Statement (.sovb y z) := register_row 0x5 0x9 y z 0x5900 (by decide) (by decide)

theorem scol (y z : RegNo) : Statement (.scol y z) := register_row 0x5 0xA y z 0x5A00 (by decide) (by decide)

theorem setf (n : Nibble) : Statement (.setf n) := nibble_row 0x6 0x0 n 0x6000 (by decide) (by decide)

theorem setfr (n : Nibble) : Statement (.setfr n) := nibble_row 0x6 0x1 n 0x6010 (by decide) (by decide)

theorem rnd (n : Nibble) : Statement (.rnd n) := nibble_row 0x7 0x0 n 0x7000 (by decide) (by decide)

theorem lpr (n : Nibble) : Statement (.lpr n) := nibble_row 0x7 0x1 n 0x7010 (by decide) (by decide)

theorem lpi (n : Nibble) : Statement (.lpi n) := nibble_row 0x8 0x0 n 0x8000 (by decide) (by decide)

theorem skp (n : Nibble) : Statement (.skp n) := nibble_row 0x9 0x0 n 0x9000 (by decide) (by decide)

theorem sknp (n : Nibble) : Statement (.sknp n) := nibble_row 0x9 0x1 n 0x9010 (by decide) (by decide)

theorem rsk (x y z : Nibble) : Statement (.rsk x y z) := family_row 0xA x y z 0xA000 (by decide) (by decide)

theorem drw (x y z : Nibble) : Statement (.drw x y z) := family_row 0xD x y z 0xD000 (by decide) (by decide)

theorem num (x y z : Nibble) : Statement (.num x y z) := family_row 0xE x y z 0xE000 (by decide) (by decide)

theorem dig (x y z : Nibble) : Statement (.dig x y z) := family_row 0xF x y z 0xF000 (by decide) (by decide)

end Sys2Proof.Laws.TableRow
end

