-- ==== Sys2Proof/Tests/Slice0.lean ====
section
/-! SUPPORT. Tests. Expected values come from spec/: the encodings of 30_encoding.md R50 and the vectors E and V of
95_test_vectors.md, named beside each test. The last part shows, for every statement with hypotheses, that they can be
met. -/

open Sys2Proof Sys2Proof.Machine Sys2Proof.Claims

namespace Sys2Proof.Tests

set_option Elab.async false

/-! ### The checks of WellFormed.lean refuse what breaks them -/

/-- The reference configuration of 00_scope.md R8, for tests alone. -/
def refcfg : Geometry := ⟨0x1000, 0xC00, 0xE00⟩

theorem test_refcfg_wellFormed : refcfg.wellFormed = true := by decide

theorem test_sprite_rom_at_zero_refused : Geometry.wellFormed ⟨0x1000, 0, 0xE00⟩ = false := by decide

theorem test_font_below_sprites_refused : Geometry.wellFormed ⟨0x1000, 0xC00, 0xBFF⟩ = false := by decide

theorem test_font_rom_past_memory_refused : Geometry.wellFormed ⟨0xF3F, 0xC00, 0xE00⟩ = false := by decide

theorem test_sprite_rom_past_memory_refused : Geometry.wellFormed ⟨0x1000, 0xE01, 0xE01⟩ = false := by decide

theorem test_memory_over_64K_refused : Geometry.wellFormed ⟨65537, 0xC00, 0xE00⟩ = false := by decide

theorem test_word_outside_table_refused : legalWord 0x5B00 = false ∧ legalWord 0x6020 = false := by decide

theorem test_key_duty_refused : (HostOp.keyDown 6).wellFormed = false ∧ (HostOp.keyUp 6).wellFormed = false := by decide

/-! ### Decoding, each word written out bit by bit from its row of 30_encoding.md R50 -/

theorem test_decode_family0 : decode 0b0000000000000000 = some .nop ∧ decode 0b0000000000001100 = some .cls := by decide

theorem test_decode_jp : decode 0b0001101010111100 = some (.jp 0xABC) := by decide

theorem test_decode_ldi : decode 0b0010101011111111 = some (.ldi 10 255) := by decide

theorem test_decode_addi : decode 0b0011000111001000 = some (.addi 1 200) := by decide

theorem test_decode_subi : decode 0b0100010111111110 = some (.subi 5 254) := by decide

theorem test_decode_mov : decode 0b0101000000010010 = some (.mov 1 2) := by decide

theorem test_decode_add : decode 0b0101000100010010 = some (.add 1 2) := by decide

theorem test_decode_sub : decode 0b0101001000010010 = some (.sub 1 2) := by decide

theorem test_decode_mul : decode 0b0101001100010010 = some (.mul 1 2) := by decide

theorem test_decode_div : decode 0b0101010000010010 = some (.div 1 2) := by decide

theorem test_decode_se : decode 0b0101010100010010 = some (.se 1 2) := by decide

theorem test_decode_sne : decode 0b0101011000010010 = some (.sne 1 2) := by decide

theorem test_decode_sgt : decode 0b0101011100010010 = some (.sgt 1 2) := by decide

theorem test_decode_sova : decode 0b0101100000010010 = some (.sova 1 2) := by decide

theorem test_decode_sovb : decode 0b0101100100010010 = some (.sovb 1 2) := by decide

theorem test_decode_scol : decode 0b0101101000010010 = some (.scol 1 2) := by decide

theorem test_decode_setf : decode 0b0110000000000011 = some (.setf 3) := by decide

theorem test_decode_setfr : decode 0b0110000000010100 = some (.setfr 4) := by decide

theorem test_decode_rnd : decode 0b0111000000000101 = some (.rnd 5) := by decide

theorem test_decode_lpr : decode 0b0111000000010001 = some (.lpr 1) := by decide

theorem test_decode_lpi : decode 0b1000000000001001 = some (.lpi 9) := by decide

theorem test_decode_skp : decode 0b1001000000000010 = some (.skp 2) := by decide

theorem test_decode_sknp : decode 0b1001000000010011 = some (.sknp 3) := by decide

theorem test_decode_rsk : decode 0b1010001100010010 = some (.rsk 3 1 2) := by decide

theorem test_decode_drw : decode 0b1101000000010010 = some (.drw 0 1 2) := by decide

theorem test_decode_num : decode 0b1110000100100011 = some (.num 1 2 3) := by decide

theorem test_decode_dig : decode 0b1111001101000101 = some (.dig 3 4 5) := by decide

/-- V2e: the illegal words next to legal ones. -/
theorem test_decode_illegal :
    [0x0001, 0x000B, 0x000D, 0x00C0, 0x0C00, 0x0FFF, 0x5B00, 0x5F12, 0x6020, 0x6100, 0x6103, 0x7020, 0x7100, 0x8010,
      0x8100, 0x9020, 0x9100, 0xB000, 0xC123, 0xCFFF].all (fun w => (decode w).isNone) = true := by decide

/-- V2e, last sentence: under the other layout 6103 is legal and 6010 is not. -/
theorem test_decode_other_layout : decodeWith .d2 0x6103 = some (.setfr 3) ∧ decodeWith .d2 0x6010 = none := by decide

/-- E10: the source's only byte-level examples. -/
theorem test_decode_bytes : decodeBytes [0x20, 0x05, 0x00, 0x0C] = .ok (.ldi 0 5, [0x00, 0x0C]) ∧
    decodeBytes [0x00, 0x0C] = .ok (.cls, []) ∧ decodeBytes [0x60, 0x20] = .error (.unimplemented 0x6020) ∧
    decodeBytes [0x60] = .error .truncated := by decide

theorem test_encode_bytes : encodeBytes (.ldi 0 5) = [0x20, 0x05] := by decide

/-! ### One step -/

/-- The step of the word `w`, placed at `pc`. -/
def stepOf (w : Nat) (s : State) : Host.Outcome State Fault Refusal := step (s.withFetchWord 16 w)

/-- The outcome is a next state of which `p` holds. -/
def after (o : Host.Outcome State Fault Refusal) (p : State → Bool) : Bool :=
  match o with
  | .next t => p t
  | _ => false

/-- The reset state with `pc = 0x100` and two registers set. -/
def at100 (r : RegNo) (v : Byte) (q : RegNo) (u : Byte) : State :=
  ((State.reset.setPc 0x100).setReg r v).setReg q u

/-- V1. -/
theorem test_nop : after (step State.reset) (fun t => t.pc == 2 && t.fault == none) = true := by decide +kernel

/-- V2: an odd address. -/
theorem test_odd_fetch :
    ((State.reset.setPc 0x101).setMem [(0x101, 0x20), (0x102, 0x05)]).fetchIn refcfg = some 0x2005 := by decide +kernel

/-- V2a, V2c. -/
theorem test_fetch_out_of_bounds :
    (State.reset.setPc 0xFFF).fetchIn refcfg = none ∧ (State.reset.setPc 0xFFFF).fetchIn ⟨65536, 0xC00, 0xE00⟩ = none := by
  decide +kernel

/-- V2a: the fault of the fetch leaves `pc` where it was. -/
theorem test_fetch_fault_record :
    (State.reset.setPc 0xFFF).fetchFault.fault = some ⟨.addressing, none, some 0xFFF⟩ ∧
      (State.reset.setPc 0xFFF).fetchFault.pc = 0xFFF := by decide

/-- V2e. -/
theorem test_illegal_word : after (stepOf 0x5B00 (at100 0 1 1 0)) (fun t => t.pc == 0x102 && t.reg 0 == 1 &&
    t.fault == some ⟨.unimplementedOpcode, some 0x5B00, some 0x100⟩) = true := by decide +kernel

/-- V4. -/
theorem test_ldi : after (stepOf 0x2AFF (at100 10 3 0 0)) (fun t => t.reg 10 == 255 && t.pc == 0x102) = true := by
  decide +kernel

/-- V7. -/
theorem test_addi_wraps : after (stepOf 0x31C8 (at100 1 100 0 0)) (fun t => t.reg 1 == 44) = true := by decide +kernel

/-- V9. -/
theorem test_subi_wraps : after (stepOf 0x45FF (at100 5 0 0 0)) (fun t => t.reg 5 == 1) = true := by decide +kernel

/-- V11: the destination is `d3`, the source `d4`. -/
theorem test_mov : after (stepOf 0x5012 (at100 1 9 2 200)) (fun t => t.reg 1 == 200 && t.reg 2 == 200) = true := by
  decide +kernel

/-- V13: the source is also the destination. -/
theorem test_add_doubles : after (stepOf 0x5111 (at100 1 200 0 0)) (fun t => t.reg 1 == 144) = true := by decide +kernel

/-- V14. -/
theorem test_sub_wraps : after (stepOf 0x5212 (at100 1 5 2 10)) (fun t => t.reg 1 == 251) = true := by decide +kernel

/-- V19. -/
theorem test_mul_wraps : after (stepOf 0x5311 (at100 1 225 0 0)) (fun t => t.reg 1 == 193) = true := by decide +kernel

/-- V20. -/
theorem test_div_floor : after (stepOf 0x5412 (at100 1 200 2 7)) (fun t => t.reg 1 == 28) = true := by decide +kernel

/-- E3. -/
theorem test_div_by_zero : after (stepOf 0x5412 (at100 1 9 2 0)) (fun t => t.reg 1 == 9 && t.pc == 0x102 &&
    t.fault == some ⟨.arithmetic, some 0x5412, some 0x100⟩) = true := by decide +kernel

/-- V25, V26: the destination and the range; the value is the environment's. -/
theorem test_rnd : after (stepOf 0x7005 (at100 5 99 0 0)) (fun t => t.drawCount == 1 && t.pc == 0x102) = true := by
  decide +kernel

/-- E4. -/
theorem test_jp : after (stepOf 0x1ABC (at100 0 0 1 0)) (fun t => t.pc == 0xABC) = true := by decide +kernel

theorem test_se : after (stepOf 0x5512 (at100 1 10 2 10)) (fun t => t.pc == 0x104) = true := by decide +kernel

theorem test_sne : after (stepOf 0x5612 (at100 1 10 2 10)) (fun t => t.pc == 0x102) = true := by decide +kernel

/-- The row (128, 127) of the skip table: an unsigned comparison. -/
theorem test_sgt_unsigned : after (stepOf 0x5712 (at100 1 128 2 127)) (fun t => t.pc == 0x104) = true := by
  decide +kernel

/-- The rows of the skip table: `y`, `z`, then `SOVA`, `SOVB` and `SCOL`. -/
def overlapRows : List (Byte × Byte × Bool × Bool × Bool) :=
  [(0, 0, false, false, true), (10, 10, false, false, true), (10, 15, true, false, true), (10, 17, true, false, true),
    (10, 18, false, false, false), (10, 9, false, true, true), (10, 5, false, true, true), (10, 2, false, false, false),
    (10, 30, false, false, false), (62, 63, true, false, true), (3, 60, false, true, true), (0, 56, false, false, false)] ++
  [(5, 255, false, true, true), (0, 255, false, true, true), (55, 55, false, false, true), (60, 60, false, false, true),
    (127, 128, true, false, true), (128, 127, false, false, false), (200, 100, false, false, false),
    (247, 250, true, false, true), (248, 250, false, false, false), (250, 252, false, false, false),
    (250, 200, false, false, false), (255, 0, false, false, false)]

theorem test_overlap_tests : overlapRows.all (fun (y, z, a, b, c) => ovA y z == a && ovB y z == b &&
    condCollide y z == c) = true := by decide

theorem test_sova : after (stepOf 0x5812 (at100 1 10 2 15)) (fun t => t.pc == 0x104) = true := by decide +kernel

theorem test_sovb : after (stepOf 0x5912 (at100 1 3 2 60)) (fun t => t.pc == 0x104) = true := by decide +kernel

theorem test_scol : after (stepOf 0x5A12 (at100 1 10 2 18)) (fun t => t.pc == 0x102) = true := by decide +kernel

/-- V32: 5 is the last valid key. -/
theorem test_skp : after (stepOf 0x9000 ((at100 0 5 1 0).setKey 5 true)) (fun t => t.pc == 0x104) = true := by
  decide +kernel

/-- E9. -/
theorem test_skp_bad_index : after (stepOf 0x9000 (at100 0 6 1 0)) (fun t => t.pc == 0x102 &&
    t.fault == some ⟨.invalidKeyIndex, some 0x9000, some 0x100⟩) = true := by decide +kernel

/-- V34, V35. -/
theorem test_sknp : after (stepOf 0x9013 (at100 3 5 1 0)) (fun t => t.pc == 0x104) = true ∧
    after (stepOf 0x9013 ((at100 3 5 1 0).setKey 5 true)) (fun t => t.pc == 0x102) = true := by decide +kernel

/-- V42, and V44 on the sum alone. -/
theorem test_rsk : after (stepOf 0xAF12 (at100 1 1 2 0)) (fun t => t.pc == 0x120) = true := by decide +kernel

theorem test_rsk_wraps : after (execRsk 15 1 2 ((at100 1 1 2 0).setPc 0xFFF2)) (fun t => t.pc == 0x0010) = true := by
  decide

/-- V50. -/
theorem test_setf : after (stepOf 0x6003 (at100 0 0 1 0)) (fun t => t.fReg == 3) = true := by decide +kernel

/-- V53. -/
theorem test_setfr : after (stepOf 0x6013 (at100 3 0x27 1 0)) (fun t => t.fReg == 7) = true := by decide +kernel

/-- V56. -/
theorem test_lpr : after (stepOf 0x7013 (at100 3 200 1 0)) (fun t => t.loopPoint == 8) = true := by decide +kernel

/-- V58. -/
theorem test_lpi : after (stepOf 0x800A (at100 0 0 1 0)) (fun t => t.loopPoint == 10) = true := by decide +kernel

/-! ### Drawing, on the reference configuration -/

/-- V88, two of the pixels. -/
theorem test_cls : after (stepOf 0x000C ((at100 0 0 1 0).setFb (Vector.replicate 64 (Vector.replicate 64 9))))
    (fun t => t.pixel 0 0 == 0 && t.pixel 63 63 == 0 && t.fReg == 15) = true := by decide +kernel

/-- V83: the position wraps, and the left pixel of the pair is the high nibble. -/
theorem test_drw_wraps :
    let t := ((at100 1 63 2 62).setMem [(0xC00, 0x12)]).drawSprite refcfg 0 1 2
    t.pixel 63 62 = 1 ∧ t.pixel 0 62 = 2 ∧ t.pixel 1 62 = 0 := by decide +kernel

/-- V85: byte 31 of sprite 15 is column group 3, row 7. -/
theorem test_drw_last_byte :
    let t := ((at100 1 0 2 0).setMem [(0xDFF, 0xAB)]).drawSprite refcfg 15 1 2
    t.pixel 6 7 = 10 ∧ t.pixel 7 7 = 11 := by decide +kernel

/-- The bytes of digits 2 and 5 in the test font of 95_test_vectors.md section 2.5. -/
def fontBytes : Memory := [(0xE40, 0xF0), (0xE45, 0xF0), (0xEA0, 0xF0), (0xEA6, 0x0F)]

/-- V73: three digits, 8 columns apart. -/
theorem test_num :
    let t := ((at100 1 255 2 0).setMem fontBytes).drawNumber refcfg 1 2 3
    t.pixel 0 0 = 15 ∧ t.pixel 2 1 = 15 ∧ t.pixel 8 0 = 15 ∧ t.pixel 13 1 = 15 ∧ t.pixel 16 0 = 15 ∧ t.pixel 21 1 = 15 ∧
      t.pixel 24 0 = 0 := by decide +kernel

theorem test_num_digits :
    decimalDigits 0 = [0] ∧ decimalDigits 44 = [4, 4] ∧ decimalDigits 100 = [1, 0, 0] ∧ decimalDigits 255 = [2, 5, 5] := by
  decide

/-- V79: index 12 is one glyph, not two digits. -/
theorem test_dig :
    let t := (((at100 1 12 2 5).setReg 3 5).setFReg 3).setMem [(0xF80, 0xF0), (0xF8A, 0xF0)] |>.drawDigit refcfg 1 2 3
    t.pixel 5 5 = 3 ∧ t.pixel 9 7 = 3 ∧ t.fault = none := by decide +kernel

/-- V81. -/
theorem test_dig_out_of_bounds :
    let t := ((at100 1 16 2 5).setReg 3 5).advance.drawDigit refcfg 1 2 3
    t.fault = some ⟨.addressing, some 0xF123, some 0x100⟩ ∧ t.pixel 5 5 = 0 ∧ t.pc = 0x102 := by decide +kernel

/-! ### The host's operations -/

/-- V90, V91, V92, V93. -/
theorem test_load :
    (State.reset.loadIn refcfg [0xAA, 0xBB] 0xFFE 0x1000).mem = [(0xFFE, 0xAA), (0xFFF, 0xBB)] ∧
      (State.reset.loadIn refcfg [0xAA, 0xBB] 0xFFF 0x1001).fault = some ⟨.addressing, none, none⟩ ∧
      (State.reset.loadIn refcfg [0xAA, 0xBB] 0x10 0x13).mem = [] ∧
      (State.reset.loadIn refcfg [0xAA, 0xBB] 0x10 0x13).fault = some ⟨.addressing, none, none⟩ ∧
      (State.reset.loadIn refcfg [] 0x10 0x10).fault = none := by decide +kernel

/-- V61. -/
theorem test_tick_dt_wraps : after (hostOp .tickDt (State.reset.setDt 0xFFFF)) (fun t => t.dt == 0) = true := by
  decide +kernel

/-- V97, first and last operation. -/
theorem test_keys : after (hostOp (.keyDown 5) State.reset) (fun t => t.key 5 && !t.key 4) = true ∧
    after (hostOp (.keyUp 5) (State.reset.setKey 5 true)) (fun t => !t.key 5) = true := by decide +kernel

/-- A core halted by a fetch past memory. -/
def haltedCore : State := (State.reset.setPc 0xFFFF).fetchFault

/-- 60_exceptions.md R128: a halted core answers `TICK` with the stored record and changes nothing, and the run goes on
to the `RESET` that clears the latch, or to `GET_SCREEN`. -/
theorem test_run_goes_on_past_a_halt :
    hostCall .tick haltedCore = .next (haltedCore, .failed ⟨.addressing, none, some 0xFFFF⟩) ∧
      after (hostRun [.tick, .reset] haltedCore) (fun t => t.fault == none && t.pc == 0) = true ∧
      after (hostRun [.tickDt, .getScreen] haltedCore) (fun t => t.pc == 0xFFFF && t.dt == 0) = true :=
  ⟨rfl, rfl, rfl⟩

/-- The cause codes of 60_exceptions.md R127. -/
theorem test_fault_codes : FaultKind.addressing.code = 1 ∧ FaultKind.unimplementedOpcode.code = 2 ∧
    FaultKind.invalidKeyIndex.code = 3 ∧ FaultKind.arithmetic.code = 4 := by decide

theorem test_decodeTableWord : decodeTableWord 16 0x5412 = some (.div 1 2) ∧ decodeTableWord 16 0xB000 = none := by
  decide

/-! ### The hypotheses of the statements can be met -/

/-- A state that holds the word `w` at address 0, where `pc` stands, with one register set. -/
def holding (w : Word) (r : RegNo) (v : Byte) : State :=
  (State.reset.setReg r v).setMem (Memory.writeList [] 0 [highByte w, lowByte w])

theorem holding_canFetch (w : Word) (r : RegNo) (v : Byte) : (holding w r v).CanFetch :=
  State.canFetch_of_small (by simp [holding, State.reset])

theorem holding_memOk (w : Word) (r : RegNo) (v : Byte) : (holding w r v).MemOk := by
  have hg := Config.geometry_wellFormed
  have h0 : Memory.wf [] := ⟨List.Pairwise.nil, fun c hc => by cases hc⟩
  refine ⟨Memory.writeList_wf h0 _ _, Memory.writeList_below (fun c hc => by cases hc) ?_⟩
  simp only [List.length_cons, List.length_nil]
  omega

/-- The reset state, read out, is in the machine's invariant's memory form. -/
theorem reset_memOk : State.reset.MemOk :=
  ⟨⟨List.Pairwise.nil, fun c hc => by cases hc⟩, fun c hc => by cases hc⟩

theorem reset_inv : State.reset.Inv :=
  ⟨⟨by decide, by decide, fun x y => by simp⟩, reset_memOk⟩

theorem witness_EncodeOfDecodedIsTheWord : ∃ l w i, decodeWith l w = some i := ⟨.d2, 0x6103, .setfr 3, by decide⟩

theorem witness_OpcodeRowsAreDisjoint :
    ∃ (w : Word) (r q : OpcodeRow), r ∈ opcodeRows ∧ q ∈ opcodeRows ∧ r.selects w = true ∧ q.selects w = true :=
  ⟨0x5412, ⟨0x5400, 0xFF00⟩, ⟨0x5400, 0xFF00⟩, by decide, by decide, by decide, by decide⟩

theorem witness_FetchIsBigEndian : (State.reset.setPc 0xFFE).pc.toNat + 1 < refcfg.memSize := by decide

theorem witness_FetchPastMemoryFaults :
    (State.reset.setPc 0xFFFF).Running ∧ Config.geometry.memSize ≤ (State.reset.setPc 0xFFFF).pc.toNat + 1 := by
  have h := Config.geometry_wellFormed
  exact ⟨rfl, by simp; omega⟩

theorem witness_StepRunsTheDecodedInstruction :
    (holding 0x5412 1 9).Running ∧ (holding 0x5412 1 9).At (.div 1 2) :=
  ⟨rfl, holding_canFetch _ _ _, by decide⟩

theorem witness_IllegalWordFaults : (holding 0x6100 1 9).Running ∧ (holding 0x6100 1 9).CanFetch ∧
    legalWord (wordAtPc (holding 0x6100 1 9)) = false :=
  ⟨rfl, holding_canFetch _ _ _, by decide⟩

theorem witness_HaltedCoreTakesNoStep : ∃ (s : State) (r : FaultRecord) (k : Nat), s.fault = some r ∧ k < 6 :=
  ⟨State.reset.fetchFault, _, 5, rfl, by decide⟩

/-- A refused operation, and the one that still works. -/
theorem witness_RefusedOperationsChangeNothing : haltedCore.fault = some ⟨.addressing, none, some 0xFFFF⟩ ∧
    (HostOp.keyUp 5).wellFormed = true ∧ HostOp.keyUp 5 ≠ .reset ∧ HostOp.getScreen.wellFormed = true ∧
    HostOp.getScreen ≠ .reset := ⟨rfl, by decide, by decide, by decide, by decide⟩

theorem witness_DutifulRunsComplete :
    ∀ op ∈ [HostOp.tick, .keyDown 5, .load [1] 9 3, .tick, .reset], op.wellFormed = true := by decide

/-- The least index that breaks the duty. -/
theorem witness_BadKeyCallsHaveNoMove : 6 ≤ 6 := Nat.le_refl 6

theorem witness_RunningCoreAlwaysSteps : State.reset.Running := rfl

/-- A faulting step whose record has no word, and one whose record has one. -/
theorem witness_FaultsArePrecise :
    (∃ t r, step (State.reset.setPc 0xFFFF) = .next t ∧ t.fault = some r ∧ r.opcode = none) ∧
      ∃ t r, step (holding 0x6100 1 9) = .next t ∧ t.fault = some r ∧ r.opcode = some 0x6100 := by
  constructor
  · have hc : ¬ (State.reset.setPc 0xFFFF).CanFetch := Nat.not_lt.2 witness_FetchPastMemoryFaults.2
    exact ⟨_, _, by rw [step, State.fetch_eq_none hc]; rfl, rfl, rfl⟩
  · have hc := State.fetch_eq_some (holding_canFetch 0x6100 1 9)
    have hd : decode (wordOfBytes ((holding 0x6100 1 9).readByte (holding 0x6100 1 9).pc.toNat)
      ((holding 0x6100 1 9).readByte ((holding 0x6100 1 9).pc.toNat + 1))) = none := by decide
    have hf : (holding 0x6100 1 9).fault = none := rfl
    exact ⟨_, _, by rw [step, hf, hc]; simp only [hd]; rfl, rfl, rfl⟩

/-- A step with a next state, for the statements whose hypothesis is that there is one. -/
theorem witness_step_next : ∃ t, State.reset.Inv ∧ State.reset.Running ∧ step State.reset = .next t := by
  rcases step_cases State.reset with ⟨r, h, _⟩ | ⟨_, _, h⟩ | ⟨op, _, _, _, _, h⟩ | ⟨op, i, _, _, _, _, h⟩
  · cases h
  · exact ⟨_, reset_inv, rfl, h⟩
  · exact ⟨_, reset_inv, rfl, h⟩
  · obtain ⟨t, ht⟩ := exec_next i State.reset.advance
    exact ⟨t, reset_inv, rfl, h.trans ht⟩

/-- A tick of a core that runs, a tick that faults in its fetch, a reset of a halted core, an address set and a key. -/
theorem witness_PcChangesOnlyByTheRule : (∃ t, hostOp .tick State.reset = .next t) ∧
    (∃ t, hostOp .tick (State.reset.setPc 0xFFFF) = .next t) ∧ (∃ t, hostOp .reset haltedCore = .next t) ∧
    (∃ t, hostOp (.setPc 0xFFFF) State.reset = .next t) ∧ ∃ t, hostOp (.keyDown 5) State.reset = .next t := by
  have hc : ¬ (State.reset.setPc 0xFFFF).CanFetch := Nat.not_lt.2 witness_FetchPastMemoryFaults.2
  have hs : step (State.reset.setPc 0xFFFF) = .next haltedCore := by rw [step, State.fetch_eq_none hc]; rfl
  exact ⟨witness_step_next.imp fun _ h => h.2.2, ⟨_, hs⟩, ⟨_, rfl⟩, ⟨_, rfl⟩, _, rfl⟩

theorem witness_StepLeavesTimerKeysAndMemory : ∃ t, step State.reset = .next t :=
  witness_step_next.imp fun _ h => h.2.2

/-- A tick with no fault in its fetch, and one that answers a record. -/
theorem witness_TickReturnsPcOrRecord : (∃ t, State.reset.Running ∧ step State.reset = .next t) ∧
    ∃ t, (State.reset.setPc 0xFFFF).Running ∧ step (State.reset.setPc 0xFFFF) = .next t ∧
      HostOp.result .tick t = .failed ⟨.addressing, none, some 0xFFFF⟩ := by
  have hc : ¬ (State.reset.setPc 0xFFFF).CanFetch := Nat.not_lt.2 witness_FetchPastMemoryFaults.2
  exact ⟨witness_step_next.imp fun _ h => h.2, _, rfl, by rw [step, State.fetch_eq_none hc]; rfl, rfl⟩

theorem witness_StepKeepsTheInvariant : ∃ t, State.reset.Inv ∧ step State.reset = .next t :=
  witness_step_next.imp fun _ h => ⟨h.1, h.2.2⟩

/-- An even `pc` and a jump to an even address. -/
theorem witness_OnlyOddJumpsMakePcOdd : (holding 0x1ABC 1 9).pc.toNat % 2 = 0 ∧
    (∀ nnn, (holding 0x1ABC 1 9).At (.jp nnn) → nnn.toNat % 2 = 0) ∧ ∃ t, step (holding 0x1ABC 1 9) = .next t := by
  have hd : decode (wordAtPc (holding 0x1ABC 1 9)) = some (.jp 0xABC) := by decide
  refine ⟨by decide, fun nnn h => ?_, ?_⟩
  · have := hd.symm.trans h.2
    simp only [Option.some.injEq, Instr.jp.injEq] at this
    subst this; decide
  · have hc := State.fetch_eq_some (holding_canFetch 0x1ABC 1 9)
    unfold wordAtPc at hd
    have hf : (holding 0x1ABC 1 9).fault = none := rfl
    exact ⟨_, by rw [step, hf, hc]; simp only [hd]; rfl⟩

theorem witness_HostRunsKeepTheInvariant :
    ∃ t, State.reset.Inv ∧ hostRun [.keyDown 5, .setPc 0xFFFF, .getScreen] State.reset = .next t :=
  ⟨_, reset_inv, rfl⟩

theorem witness_DivIsFloorDivision : (at100 1 200 2 7).regNat 2 ≠ 0 := by decide

theorem witness_DivByZeroFaults :
    (holding 0x5412 1 9).Running ∧ (holding 0x5412 1 9).At (.div 1 2) ∧ (holding 0x5412 1 9).regNat 2 = 0 :=
  ⟨rfl, ⟨holding_canFetch _ _ _, by decide⟩, by decide⟩

theorem witness_NopOnlyAdvances : (holding 0x0000 1 9).Running ∧ (holding 0x0000 1 9).At .nop :=
  ⟨rfl, holding_canFetch _ _ _, by decide⟩

/-- The first and the last key. -/
theorem witness_KeySkipsFollowTheLatch :
    (holding 0x9001 1 0).regNat 1 = (0 : Fin 6).val ∧ (holding 0x9001 1 5).regNat 1 = (5 : Fin 6).val := by decide

/-- The least bad index, for each of the two instructions. -/
theorem witness_BadKeyIndexFaults :
    ((holding 0x9001 1 6).Running ∧ 6 ≤ (holding 0x9001 1 6).regNat 1 ∧ (holding 0x9001 1 6).At (.skp 1)) ∧
      ((holding 0x9011 1 6).Running ∧ 6 ≤ (holding 0x9011 1 6).regNat 1 ∧ (holding 0x9011 1 6).At (.sknp 1)) :=
  ⟨⟨rfl, by decide, holding_canFetch _ _ _, by decide⟩, rfl, by decide, holding_canFetch _ _ _, by decide⟩

/-- Both clauses of each skip and of `RSK`: equal registers and unequal ones. -/
theorem witness_skips : (at100 1 10 2 10).reg 1 = (at100 1 10 2 10).reg 2 ∧ (at100 1 128 2 127).reg 1 ≠ (at100 1 128 2 127).reg 2 ∧
    (at100 1 128 2 127).regNat 2 < (at100 1 128 2 127).regNat 1 := by decide

/-- The last digit, and an index whose glyph lies in memory. -/
theorem witness_DigDrawsTheGlyph : (at100 1 9 2 0).regNat 1 ≤ 9 ∧
    Config.geometry.fontStart + (at100 1 0 2 0).regNat 1 * 32 + 32 ≤ Config.geometry.memSize := by
  have h := Config.geometry_wellFormed
  have h0 : (at100 1 0 2 0).regNat 1 = 0 := by decide
  exact ⟨by decide, by omega⟩

/-- The least index out of bounds on the reference configuration. -/
theorem witness_DigPastMemoryFaults : refcfg.memSize < refcfg.fontStart + (at100 1 16 2 5).regNat 1 * 32 + 32 := by decide

/-- Two bytes at the bottom of memory, and the empty load at its very top. -/
theorem witness_LoadCopiesItsBytes : State.reset.Running ∧ State.reset.MemOk ∧
    (0 ≤ 2 ∧ 2 - 0 = [0xAA, (0xBB : Byte)].length ∧ 2 ≤ Config.geometry.memSize) ∧
    Config.geometry.memSize - Config.geometry.memSize = ([] : List Byte).length := by
  have h := Config.geometry_wellFormed
  exact ⟨rfl, reset_memOk, ⟨by decide, rfl, by omega⟩, by simp⟩

/-- Each of the three ways a range is bad. -/
theorem witness_BadLoadFaults : State.reset.Running ∧ 1 < 2 ∧ 0x13 - 0x10 ≠ [0xAA, (0xBB : Byte)].length ∧
    Config.geometry.memSize < Config.geometry.memSize + 1 := by
  refine ⟨rfl, by decide, by decide, ?_⟩
  omega

theorem witness_LoadedInstructionRunsNext : State.reset.Running ∧ State.reset.MemOk ∧ State.reset.CanFetch :=
  ⟨rfl, reset_memOk, State.canFetch_of_small (by decide)⟩

theorem witness_HostWritesOneRegister : State.reset.Running := rfl

end Sys2Proof.Tests
end

section
/-! What the accessors read in the reset state (10_state.md R28): beside `State.reset_pixel`, the same fact for registers,
keys and bytes of memory, and the obligation assembled from them. -/

namespace Sys2Proof.Machine

/-- Every register is 0 after reset. -/
@[simp] theorem State.reset_reg (r : RegNo) : State.reset.reg r = 0 := by
  simp [State.reg, State.reset]

/-- No key is held after reset. -/
@[simp] theorem State.reset_key (k : Fin 6) : State.reset.key k = false := by
  simp [State.key, State.reset]

/-- Every byte of memory is 0 after reset: nothing is listed, and an unlisted address reads 0 (log entry 8). -/
@[simp] theorem State.reset_readByte (a : Nat) : State.reset.readByte a = 0 := Memory.read_nil a

/-- Settles O23: each indexed row of R28's table by its accessor's lemma; `pc`, `dt`, `f_reg`, `loop_point` and the fault
latch (R24) are fields of the reset state and hold by its definition. -/
theorem resetValues : Obligations.ResetValues :=
  ⟨State.reset_reg, rfl, rfl, rfl, rfl, State.reset_key, State.reset_pixel, State.reset_readByte, rfl⟩

end Sys2Proof.Machine
end

section
/-! The word of every instruction, decoded and as a number: decoding undoes encoding in each format of 30_encoding.md R48
to R51, and the encoder's word is the number of the opcode map (R50). -/

namespace Sys2Proof.Machine

open Sys2Proof.Claims

/-- Decoding undoes encoding, format by format: the fields of a word put together from fields are those fields. -/
@[simp] theorem decodeWith_encodeWith (l : SubopLayout) (i : Instr) : decodeWith l (encodeWith l i) = some i := by
  cases i with
  | nop | cls => cases l <;> decide
  | jp nnn => simp [encodeWith, decodeWith]
  | ldi x nn | addi x nn | subi x nn => simp [encodeWith, decodeWith]
  | mov y z | add y z | sub y z | mul y z | div y z | se y z | sne y z | sgt y z | sova y z | sovb y z | scol y z =>
    simp [encodeWith, decodeWith, decodeFamily5]
  | setf n | setfr n | rnd n | lpr n | lpi n | skp n | sknp n => simp [encodeWith, decodeWith, decodeFamilyN]
  | rsk x y z | drw x y z | num x y z | dig x y z => simp [encodeWith, decodeWith]

/-- The encoder's word, in the model's layout, is the opcode map's number. -/
theorem encode_toNat (i : Instr) : (encode i).toNat = tableNumber i := by
  cases i with
  | nop | cls => rfl
  | jp nnn => exact jpWord_toNat nnn
  | ldi x nn | addi x nn | subi x nn =>
    simp [encode, encodeWith, ofNibblesByte_toNat, tableNumber, Nat.mul_comm]
  | mov y z | add y z | sub y z | mul y z | div y z | se y z | sne y z | sgt y z | sova y z | sovb y z | scol y z =>
    simp [encode, encodeWith, ofNibbles_toNat, tableNumber, Nat.mul_comm]
  | setf n | setfr n | rnd n | lpr n | lpi n | skp n | sknp n =>
    simp [encode, encodeWith, subopLayout, ofSubop, ofNibbles_toNat, tableNumber]
  | rsk x y z | drw x y z | num x y z | dig x y z =>
    simp [encode, encodeWith, ofNibbles_toNat, tableNumber, Nat.mul_comm]

/-- The number of an instruction in the opcode map, read as a word, is that instruction. -/
theorem encodes_tableNumber (i : Instr) : Encodes i (tableNumber i) := by
  rw [← encode_toNat]
  exact ⟨(encode i).isLt, by
    rw [BitVec.ofNat_toNat, BitVec.setWidth_eq]; exact decodeWith_encodeWith subopLayout i⟩

end Sys2Proof.Machine
end

section
/-! 41_alu.md, R70 to R76: an instruction that writes one register changes that register alone, and the byte it writes is
the sum, difference or product modulo 256 as a number. The value is computed from the state before the write, so `Y = Z`
needs no case of its own. -/

namespace Sys2Proof.Machine

open Sys2Proof.Claims

/-- A register write changes that register and no other part of the state. -/
theorem onlyParts_setReg (s : State) (r : RegNo) (v : Byte) : OnlyParts [.reg r] s (s.setReg r v) := by
  intro p hp
  cases p with
  | reg q => exact s.reg_setReg_ne (by simpa using hp) v
  | _ => rfl

@[simp] theorem State.regNat_setReg_self (s : State) (r : RegNo) (v : Byte) : (s.setReg r v).regNat r = v.toNat := by
  rw [State.regNat_eq, State.reg_setReg_self]

/-- The difference of two bytes, as a number, is the integer difference reduced modulo 256 (41_alu.md R78). -/
theorem byte_sub_toNat (a b : Byte) : ((a - b).toNat : Int) = ((a.toNat : Int) - b.toNat) % 256 := by
  rw [BitVec.toNat_sub]; omega

/-- Settles O27: `LDI` is one register write of its literal. -/
theorem ldiLoadsTheLiteral : Obligations.LdiLoadsTheLiteral := fun x nn s =>
  ⟨encodes_tableNumber (.ldi x nn), _, rfl, s.reg_setReg_self x nn, onlyParts_setReg s x nn⟩

/-- Settles O28: each is one register write, of a byte sum or difference with the literal. -/
theorem immediateArithmeticWraps : Obligations.ImmediateArithmeticWraps := fun x nn s =>
  ⟨⟨encodes_tableNumber (.addi x nn), s.setReg x (s.reg x + nn), rfl,
      by rw [State.regNat_setReg_self, BitVec.toNat_add]; rfl, onlyParts_setReg s x _⟩,
    ⟨encodes_tableNumber (.subi x nn), s.setReg x (s.reg x - nn), rfl,
      by rw [State.regNat_setReg_self, byte_sub_toNat]; rfl, onlyParts_setReg s x _⟩⟩

/-- Settles O29: `MOV` is one register write of the other register's value. -/
theorem movCopiesTheSource : Obligations.MovCopiesTheSource := fun y z s =>
  ⟨encodes_tableNumber (.mov y z), _, rfl, s.reg_setReg_self y (s.reg z), onlyParts_setReg s y _⟩

/-- Settles O30: each is one register write, of the byte sum, difference or product of the old values. -/
theorem registerArithmeticWraps : Obligations.RegisterArithmeticWraps := fun y z s =>
  ⟨⟨encodes_tableNumber (.add y z), s.setReg y (s.reg y + s.reg z), rfl,
      by rw [State.regNat_setReg_self, BitVec.toNat_add]; rfl, onlyParts_setReg s y _⟩,
    ⟨encodes_tableNumber (.sub y z), s.setReg y (s.reg y - s.reg z), rfl,
      by rw [State.regNat_setReg_self, byte_sub_toNat]; rfl, onlyParts_setReg s y _⟩,
    ⟨encodes_tableNumber (.mul y z), s.setReg y (s.reg y * s.reg z), rfl,
      by rw [State.regNat_setReg_self, BitVec.toNat_mul]; rfl, onlyParts_setReg s y _⟩⟩

end Sys2Proof.Machine
end

section
/-! 42_branch_skip.md, R80 to R83 and R91: a jump or a skip is one write of `pc`, from the advanced one, so its frame is
that of `setPc`; what remains of each instruction is the value written, as a number. -/

namespace Sys2Proof.Machine

open Sys2Proof.Claims

/-- A write of `pc` changes no other part of the state. -/
theorem onlyParts_setPc (s : State) (v : Word) : OnlyParts [.pc] s (s.setPc v) := by
  intro p hp
  cases p with
  | pc => exact absurd List.mem_cons_self hp
  | _ => rfl

/-- The model's skip on a Boolean test is the skip of R80 on the condition that the test decides. -/
theorem skipsIf_skipIf {c : Prop} {b : Bool} (h : b = true ↔ c) (s : State) : SkipsIf c s (s.skipIf b) := by
  rw [State.skipIf_eq]
  refine ⟨fun hc => ?_, fun hc => ?_, onlyParts_setPc s _⟩
  · rw [State.setPc_pc, if_pos (h.mpr hc), BitVec.toNat_add]; rfl
  · rw [State.setPc_pc, if_neg (mt h.mp hc)]

/-- The test of `SNE`: the equality test fails exactly on unequal values. -/
theorem not_condEqual_iff (y z : Byte) : (!condEqual y z) = true ↔ y ≠ z := by
  rw [Bool.not_eq_true', ← Bool.not_eq_true, condEqual_iff]

/-- `RSK` writes `pc` and nothing else: the old value again where the registers are equal. -/
theorem exec_rsk_eq (x : Nibble) (y z : RegNo) (s : State) :
    exec (.rsk x y z) s = .next (s.setPc (if s.reg y = s.reg z then s.pc else s.pc + rskOffset x)) := by
  change Host.Outcome.next (if condEqual (s.reg y) (s.reg z) = true then s else _) = _
  simp only [condEqual_iff]
  split <;> rfl

/-- Settles O35: `JP` is one write of `pc`, of its zero-extended operand. -/
theorem jpSetsPcToTheOperand : Obligations.JpSetsPcToTheOperand := fun nnn s =>
  ⟨encodes_tableNumber (.jp nnn), s.setPc (jumpTarget nnn), rfl, jumpTarget_toNat nnn, onlyParts_setPc s _⟩

/-- Settles O36: each is a skip whose test decides equality, or its negation. -/
theorem equalitySkips : Obligations.EqualitySkips := fun y z s =>
  ⟨⟨encodes_tableNumber (.se y z), _, rfl, skipsIf_skipIf (condEqual_iff _ _) s⟩,
    ⟨encodes_tableNumber (.sne y z), _, rfl, skipsIf_skipIf (not_condEqual_iff _ _) s⟩⟩

/-- Settles O42: the one write of `pc` adds the offset `2*X` where the registers differ. -/
theorem rskSkipsForward : Obligations.RskSkipsForward := by
  intro x y z s
  refine ⟨encodes_tableNumber (.rsk x y z), _, exec_rsk_eq x y z s, fun hne => ?_, fun he => ?_, onlyParts_setPc s _⟩
  · rw [State.setPc_pc, if_neg hne, BitVec.toNat_add, rskOffset_toNat]
  · rw [State.setPc_pc, if_pos he]

end Sys2Proof.Machine
end

section
/-! 43_special_regs.md, R93 and R96: a write of `f_reg` or of `loop_point` changes that part alone, and a literal operand
is written zero-extended, so as a number it is the operand. -/

namespace Sys2Proof.Machine

open Sys2Proof.Claims

/-- A write of `f_reg` changes no other part of the state. -/
theorem onlyParts_setFReg (s : State) (v : Byte) : OnlyParts [.fReg] s (s.setFReg v) := by
  intro p hp
  cases p with
  | fReg => exact absurd List.mem_cons_self hp
  | _ => rfl

/-- A write of `loop_point` changes no other part of the state. -/
theorem onlyParts_setLoopPoint (s : State) (v : Word) : OnlyParts [.loopPoint] s (s.setLoopPoint v) := by
  intro p hp
  cases p with
  | loopPoint => exact absurd List.mem_cons_self hp
  | _ => rfl

/-- Settles O43: each is one write of its zero-extended literal. -/
theorem literalWritesOfSpecialRegisters : Obligations.LiteralWritesOfSpecialRegisters := fun n s =>
  ⟨⟨encodes_tableNumber (.setf n), s.setFReg (litByte n), rfl, litByte_toNat n, onlyParts_setFReg s _⟩,
    ⟨encodes_tableNumber (.lpi n), s.setLoopPoint (litWord n), rfl, litWord_toNat n, onlyParts_setLoopPoint s _⟩⟩

end Sys2Proof.Machine
end

section
/-! 44_blit.md, R105: a write of the framebuffer changes pixels alone, and `CLS` writes the blank one. -/

namespace Sys2Proof.Machine

open Sys2Proof.Claims

/-- A write of the framebuffer changes no part of the state that is not a pixel. -/
theorem onlyPixels_setFb (s : State) (fb : Framebuffer) : OnlyPixels s (s.setFb fb) := by
  intro p hp
  cases p with
  | pixel x y => exact absurd ⟨x, y, rfl⟩ hp
  | _ => rfl

/-- Settles O45: `CLS` is one write of the framebuffer, of the one whose every pixel is 0. -/
theorem clsClearsEveryPixel : Obligations.ClsClearsEveryPixel :=
  ⟨encodes_tableNumber .cls, fun s =>
    ⟨s.setFb Framebuffer.blank, rfl, fun x y => by rw [State.pixel_setFb, Framebuffer.pixel_blank],
      onlyPixels_setFb s _⟩⟩

end Sys2Proof.Machine
end

section
/-! 30_encoding.md, R47 to R52: a word that decodes is put together from its own fields, so it is the word of the
instruction; and a word decodes exactly where a row of the opcode map selects it. -/

namespace Sys2Proof.Machine

open Sys2Proof.Claims

section Words

variable {l : SubopLayout} {w : Word} {i : Instr}

/-! ### Words put together from their own fields -/

/-- A word of known family and `d2` is put together from them and its two low fields. -/
theorem ofNibbles_of_fields {a b : Nibble} (ha : (fieldD1 w).toNat = a.toNat)
    (hb : (fieldD2 w).toNat = b.toNat) : ofNibbles a b (fieldD3 w) (fieldD4 w) = w := by
  rw [← BitVec.eq_of_toNat_eq ha, ← BitVec.eq_of_toNat_eq hb, ofNibbles_fields]

/-- A word of format `I` of known family is put together from it, its register number and its literal. -/
theorem ofNibblesByte_of_fields {a : Nibble} (ha : (fieldD1 w).toNat = a.toNat) :
    ofNibblesByte a (fieldD2 w) (fieldNN w) = w := by
  rw [← BitVec.eq_of_toNat_eq ha, ofNibblesByte_fields]

/-- A word of format `N` of known family and sub-opcode is put together from them and its operand. -/
theorem ofSubop_of_fields {f s : Nibble} (hf : (fieldD1 w).toNat = f.toNat)
    (hs : fieldSubop l w = some s.toNat) : ofSubop l f s (fieldD4 w) = w := by
  have hw := ofNibbles_fields w
  rw [BitVec.eq_of_toNat_eq hf] at hw
  cases l
  all_goals
    simp only [fieldSubop, Option.ite_none_right_eq_some, Option.some.injEq] at hs
    obtain ⟨hz, hs⟩ := hs
    rw [hz, BitVec.eq_of_toNat_eq hs] at hw
    exact hw

/-- The word of a jump is put together from the family and its operand. -/
theorem jpWord_of_fields (h : (fieldD1 w).toNat = 1) : (0x1#4 ++ fieldNNN w : Word) = w := by
  apply BitVec.eq_of_toNat_eq
  rw [fieldD1_toNat] at h
  rw [jpWord_toNat, fieldNNN_toNat]
  omega

/-! ### A word that decodes is the word of the instruction -/

theorem encodeWith_of_decodeFamily0 (h : decodeFamily0 w = some i) : encodeWith l i = w := by
  unfold decodeFamily0 at h
  split at h
  · cases h; exact ‹w = _›.symm
  · split at h <;> cases h
    exact ‹w = _›.symm

theorem encodeWith_of_decodeFamily5 (hf : (fieldD1 w).toNat = 5) (h : decodeFamily5 w = some i) :
    encodeWith l i = w := by
  unfold decodeFamily5 at h
  split at h <;> cases h <;> exact ofNibbles_of_fields hf ‹_›

theorem encodeWith_of_decodeFamilyN (h : decodeFamilyN l w = some i) : encodeWith l i = w := by
  unfold decodeFamilyN at h
  split at h <;> cases h <;> exact ofSubop_of_fields ‹_› ‹_›

/-- Encoding undoes decoding: no bit of a word that decodes is ignored. -/
theorem encodeWith_of_decodeWith (h : decodeWith l w = some i) : encodeWith l i = w := by
  unfold decodeWith at h
  split at h
  case h_1 => exact encodeWith_of_decodeFamily0 h
  case h_2 => cases h; exact jpWord_of_fields ‹_›
  case h_3 | h_4 | h_5 => cases h; exact ofNibblesByte_of_fields ‹_›
  case h_6 => exact encodeWith_of_decodeFamily5 ‹_› h
  case h_7 | h_8 | h_9 | h_10 => exact encodeWith_of_decodeFamilyN h
  case h_11 | h_12 | h_13 | h_14 => cases h; exact ofNibbles_of_fields ‹_› rfl
  case h_15 => cases h

theorem encode_of_decode (h : decode w = some i) : encode i = w := encodeWith_of_decodeWith h

/-- A word decodes to an instruction exactly where it is the instruction's word. -/
theorem decode_eq_some_iff : decode w = some i ↔ encode i = w :=
  ⟨encode_of_decode, fun h => h ▸ decodeWith_encodeWith subopLayout i⟩

/-! ### The rows of the opcode map -/

/-- Every instruction's word selects its own row of the map. -/
theorem encode_selects_rowOf (i : Instr) : Laws.TableRow.Statement i := by
  cases i with
  | nop => exact Laws.TableRow.nop
  | cls => exact Laws.TableRow.cls
  | jp nnn => exact Laws.TableRow.jp nnn
  | ldi x nn => exact Laws.TableRow.ldi x nn
  | addi x nn => exact Laws.TableRow.addi x nn
  | subi x nn => exact Laws.TableRow.subi x nn
  | mov y z => exact Laws.TableRow.mov y z
  | add y z => exact Laws.TableRow.add y z
  | sub y z => exact Laws.TableRow.sub y z
  | mul y z => exact Laws.TableRow.mul y z
  | div y z => exact Laws.TableRow.div y z
  | se y z => exact Laws.TableRow.se y z
  | sne y z => exact Laws.TableRow.sne y z
  | sgt y z => exact Laws.TableRow.sgt y z
  | sova y z => exact Laws.TableRow.sova y z
  | sovb y z => exact Laws.TableRow.sovb y z
  | scol y z => exact Laws.TableRow.scol y z
  | setf n => exact Laws.TableRow.setf n
  | setfr n => exact Laws.TableRow.setfr n
  | rnd n => exact Laws.TableRow.rnd n
  | lpr n => exact Laws.TableRow.lpr n
  | lpi n => exact Laws.TableRow.lpi n
  | skp n => exact Laws.TableRow.skp n
  | sknp n => exact Laws.TableRow.sknp n
  | rsk x y z => exact Laws.TableRow.rsk x y z
  | drw x y z => exact Laws.TableRow.drw x y z
  | num x y z => exact Laws.TableRow.num x y z
  | dig x y z => exact Laws.TableRow.dig x y z

theorem selects_iff (r : OpcodeRow) (w : Word) : r.selects w = true ↔ w &&& r.mask = r.pattern := by
  rw [OpcodeRow.selects, beq_iff_eq]

/-- Where the mask covers a nibble, a word that selects the row has the pattern's nibble there. -/
theorem nibble_of_selects {r : OpcodeRow} (h : r.selects w = true) (k : Nat) (hm : r.mask.extractLsb' k 4 = 0xF) :
    (w.extractLsb' k 4).toNat = (r.pattern.extractLsb' k 4).toNat := by
  rw [selects_iff] at h
  rw [← h, BitVec.extractLsb'_and, hm, Laws.TableRow.and_ones]

/-- A word that selects a row with no sub-opcode decodes: the first two rows are one word each, the others a family. -/
theorem decode_isSome_of_plainRow {r : OpcodeRow} (hr : r ∈ opcodeRowsPlain) (h : r.selects w = true) :
    (decode w).isSome = true := by
  simp only [opcodeRowsPlain, List.mem_cons, List.not_mem_nil, or_false] at hr
  obtain rfl | rfl | rfl | rfl | rfl | rfl | rfl | rfl | rfl | rfl := hr
  iterate 2
    rw [show w = _ from BitVec.and_allOnes.symm.trans ((selects_iff _ w).1 h)]
    rfl
  all_goals
    have hf : (fieldD1 w).toNat = _ := nibble_of_selects h 12 rfl
    simp [decode, decodeWith, hf]

/-- So does one that selects a row of family 5, which fixes the family and `d2`. -/
theorem decode_isSome_of_registerRow {r : OpcodeRow} (hr : r ∈ opcodeRowsRegister) (h : r.selects w = true) :
    (decode w).isSome = true := by
  simp only [opcodeRowsRegister, List.mem_cons, List.not_mem_nil, or_false] at hr
  obtain rfl | rfl | rfl | rfl | rfl | rfl | rfl | rfl | rfl | rfl | rfl := hr
  all_goals
    have hf : (fieldD1 w).toNat = _ := nibble_of_selects h 12 rfl
    have hs : (fieldD2 w).toNat = _ := nibble_of_selects h 8 rfl
    simp [decode, decodeWith, decodeFamily5, hf, hs]

/-- So does one that selects a row of format `N`, which fixes the three high nibbles. -/
theorem decode_isSome_of_nibbleRow {r : OpcodeRow} (hr : r ∈ opcodeRowsNibble) (h : r.selects w = true) :
    (decode w).isSome = true := by
  simp only [opcodeRowsNibble, List.mem_cons, List.not_mem_nil, or_false] at hr
  obtain rfl | rfl | rfl | rfl | rfl | rfl | rfl := hr
  all_goals
    have hf : (fieldD1 w).toNat = _ := nibble_of_selects h 12 rfl
    have hz : (fieldD2 w).toNat = _ := nibble_of_selects h 8 rfl
    have hs : (fieldD3 w).toNat = _ := nibble_of_selects h 4 rfl
    simp [decode, decodeWith, decodeFamilyN, fieldSubop, subopLayout, hf, BitVec.eq_of_toNat_eq hz, hs]

end Words

/-! ### The statements -/

/-- Settles O1: decoding undoes encoding. -/
theorem decodeOfEncodeIsTheInstruction : Obligations.DecodeOfEncodeIsTheInstruction := decodeWith_encodeWith

/-- Settles O2, by the decoder's cases: each family's word is put together from the fields the decoder read. -/
theorem encodeOfDecodedIsTheWord : Obligations.EncodeOfDecodedIsTheWord := fun _ _ _ => encodeWith_of_decodeWith

/-- Settles O5: the instruction's word is the one of that number. -/
theorem decodedWordHasTheTablesNumber : Obligations.DecodedWordHasTheTablesNumber := fun w i => by
  rw [decode_eq_some_iff, ← BitVec.toNat_inj, encode_toNat, eq_comm]

/-- Settles O6: each word's number is its instruction's; the three others lie in families whose rows miss them. -/
theorem sampleWordsDecode : Obligations.SampleWordsDecode :=
  ⟨(decodedWordHasTheTablesNumber _ _).2 rfl, (decodedWordHasTheTablesNumber _ _).2 rfl,
    (decodedWordHasTheTablesNumber _ _).2 rfl, (decodedWordHasTheTablesNumber _ _).2 rfl,
    (decodedWordHasTheTablesNumber _ _).2 rfl, (decodedWordHasTheTablesNumber _ _).2 rfl,
    (decodedWordHasTheTablesNumber _ _).2 rfl, by decide, by decide, by decide⟩

/-- Settles O3: a word that decodes is its instruction's word, which selects that instruction's row; and each row fixes
the nibbles that the decoder tests. -/
theorem decoderAcceptsExactlyTheTable : Obligations.DecoderAcceptsExactlyTheTable := by
  intro w
  rw [legalWord, List.any_eq_true]
  constructor
  · rw [Option.isSome_iff_exists]
    rintro ⟨i, hi⟩
    rw [← encode_of_decode hi]
    exact ⟨_, encode_selects_rowOf i⟩
  · rintro ⟨r, hr, h⟩
    rw [opcodeRows, List.mem_append, List.mem_append] at hr
    obtain (hr | hr) | hr := hr
    · exact decode_isSome_of_plainRow hr h
    · exact decode_isSome_of_registerRow hr h
    · exact decode_isSome_of_nibbleRow hr h

/-- Settles O4: two rows that one word selects agree under both masks, and no two rows of the map do. -/
theorem opcodeRowsAreDisjoint : Obligations.OpcodeRowsAreDisjoint := by
  intro w r q hr hq hrw hqw
  have overlap : ∀ r ∈ opcodeRows, ∀ q ∈ opcodeRows, r.pattern &&& q.mask = q.pattern &&& r.mask → r = q := by decide
  rw [selects_iff] at hrw hqw
  refine overlap r hr q hq ?_
  rw [← hrw, ← hqw, BitVec.and_assoc, BitVec.and_assoc, BitVec.and_comm r.mask]

end Sys2Proof.Machine
end

section
/-! 41_alu.md, R77 and R79; 42_branch_skip.md, R84 to R90; 43_special_regs.md, R94 and R95: the other instructions that
write one register or `pc`. What remains of each is the value written, or the test that decides the skip, as a number. -/

namespace Sys2Proof.Machine

open Sys2Proof.Claims

theorem State.regNat_lt (s : State) (r : RegNo) : s.regNat r < 256 := (s.reg r).isLt

/-- A draw writes its register and the draw counter and no other part of the state. -/
theorem onlyParts_setReg_setDrawCount (s : State) (r : RegNo) (v : Byte) (n : Nat) :
    OnlyParts [.reg r, .drawCount] s ((s.setReg r v).setDrawCount n) := by
  intro p hp
  cases p with
  | reg q => exact s.reg_setReg_ne (by simpa using hp) v
  | drawCount => simp at hp
  | _ => rfl

/-- `DIV` by a nonzero register is one register write. -/
theorem exec_div_of_ne_zero {z : RegNo} {s : State} (h : s.regNat z ≠ 0) (y : RegNo) :
    exec (.div y z) s = .next (s.setReg y (BitVec.ofNat 8 (s.regNat y / s.regNat z))) := by
  rw [exec, execDiv, if_neg h]

/-- A key skip on a key's index is a skip on that key's latch. -/
theorem State.keySkip_of_regNat_eq {s : State} {n : RegNo} {k : Fin 6} (h : s.regNat n = k.val) (i : Instr) (v : Bool) :
    s.keySkip i n v = s.skipIf (s.key k == v) := by
  rw [State.keySkip, State.keyIndex_of_lt (h ▸ k.isLt)]
  simp only [h]

/-- The combined collision test, with the values compared as numbers (42_branch_skip.md R88). -/
theorem condCollide_iff_toNat (y z : Byte) : condCollide y z = true ↔
    (y.toNat < z.toNat ∧ z.toNat < (y.toNat + 8) % 256) ∨
      (y.toNat < (z.toNat + 8) % 64 ∧ (z.toNat + 8) % 64 < (y.toNat + 8) % 256) ∨ y.toNat = z.toNat := by
  rw [condCollide_iff, ovA_iff, ovB_iff, BitVec.toNat_inj]

/-- Settles O31: the one register write is of the quotient, which is no more than the dividend and so fits in a byte. -/
theorem divIsFloorDivision : Obligations.DivIsFloorDivision := by
  intro y z s hz
  refine ⟨encodes_tableNumber (.div y z), _, exec_div_of_ne_zero hz y, ?_, onlyParts_setReg s y _⟩
  rw [State.regNat_setReg_self, BitVec.toNat_ofNat]
  exact Nat.mod_eq_of_lt (lt_of_le_of_lt (Nat.div_le_self _ _) (s.regNat_lt y))

/-- Settles O33: `RND` writes the zero-extended draw and counts it. -/
theorem rndWritesADraw : Obligations.RndWritesADraw := by
  intro n s
  have hv : ((s.setReg n (litByte s.nextDraw)).setDrawCount (s.drawCount + 1)).regNat n = s.nextDraw.toNat :=
    (s.regNat_setReg_self n _).trans (litByte_toNat _)
  exact ⟨encodes_tableNumber (.rnd n), _, rfl, hv, hv.trans_lt s.nextDraw.isLt, rfl,
    onlyParts_setReg_setDrawCount s n _ _⟩

/-- Settles O37: the test of `SGT` decides the unsigned comparison. -/
theorem greaterSkipIsUnsigned : Obligations.GreaterSkipIsUnsigned := fun y z s =>
  ⟨encodes_tableNumber (.sgt y z), _, rfl, skipsIf_skipIf (condGreater_iff _ _) s⟩

/-- Settles O38: each is a skip whose test decides the comparisons written out. -/
theorem overlapSkips : Obligations.OverlapSkips := fun y z s =>
  ⟨⟨encodes_tableNumber (.sova y z), _, rfl, skipsIf_skipIf (ovA_iff _ _) s⟩,
    ⟨encodes_tableNumber (.sovb y z), _, rfl, skipsIf_skipIf (ovB_iff _ _) s⟩,
    ⟨encodes_tableNumber (.scol y z), _, rfl, skipsIf_skipIf (condCollide_iff_toNat _ _) s⟩⟩

/-- Settles O39: up to 247 the sum `y + 8` does not wrap and is past the bound for the seven values below it; from 248 on
it wraps to at most 7, and no bound lies above `y` and below that. -/
theorem overlapTestsAreIntervals : Obligations.OverlapTestsAreIntervals := by
  intro y z
  have hy := y.isLt
  have hz := z.isLt
  rw [ovA_iff, ovB_iff]
  constructor <;> omega

/-- Settles O40: on a key's index each is a skip on that key's latch, for its own value of it. -/
theorem keySkipsFollowTheLatch : Obligations.KeySkipsFollowTheLatch := fun n s _ h =>
  ⟨⟨encodes_tableNumber (.skp n), _, congrArg Host.Outcome.next (State.keySkip_of_regNat_eq h _ _),
      skipsIf_skipIf beq_iff_eq s⟩,
    ⟨encodes_tableNumber (.sknp n), _, congrArg Host.Outcome.next (State.keySkip_of_regNat_eq h _ _),
      skipsIf_skipIf beq_iff_eq s⟩⟩

/-- Settles O44: each is one write of the zero-extended low nibble. -/
theorem registerWritesOfSpecialRegisters : Obligations.RegisterWritesOfSpecialRegisters := fun n s =>
  ⟨⟨encodes_tableNumber (.setfr n), s.setFReg (litByte (lowNibble (s.reg n))), rfl,
      (litByte_toNat _).trans (lowNibble_toNat _), onlyParts_setFReg s _⟩,
    ⟨encodes_tableNumber (.lpr n), s.setLoopPoint (litWord (lowNibble (s.reg n))), rfl,
      (litWord_toNat _).trans (lowNibble_toNat _), onlyParts_setLoopPoint s _⟩⟩

end Sys2Proof.Machine
end

section
/-! 40_step_dispatch.md, R60 to R65, and 60_exceptions.md, R120 to R129: each way a running core's step ends, with the
word it fetched named once, and what a faulting step leaves. A faulting step is one write of the latch, after the advance
where a word was fetched. -/

namespace Sys2Proof.Machine

open Sys2Proof.Claims

/-! ### The ways a step ends -/

section Steps

variable {s t : State} {i : Instr}

theorem step_of_halted {r : FaultRecord} (h : s.fault = some r) : step s = .fault (.halted r) := by
  rw [step, h]

/-- The fetch of a word inside memory is the word at `pc`. -/
theorem fetch_eq_wordAtPc (hc : s.CanFetch) : s.fetch = some (wordAtPc s) := State.fetch_eq_some hc

theorem step_of_not_canFetch (hr : s.Running) (hc : ¬ s.CanFetch) :
    step s = .next (s.setFault (some ⟨.addressing, none, some s.pc⟩)) := by
  rw [step, show s.fault = none from hr, State.fetch_eq_none hc]
  rfl

theorem step_of_decode_none (hr : s.Running) (hc : s.CanFetch) (hd : decode (wordAtPc s) = none) :
    step s = .next (s.advance.setFault (some ⟨.unimplementedOpcode, some (wordAtPc s), some s.pc⟩)) := by
  rw [step, show s.fault = none from hr, fetch_eq_wordAtPc hc]
  simp only [hd]
  rfl

/-- A step runs the instruction at `pc` on the advanced state. -/
theorem step_of_at (hr : s.Running) (h : s.At i) : step s = exec i s.advance := by
  obtain ⟨hc, hd⟩ := h
  rw [step, show s.fault = none from hr, fetch_eq_wordAtPc hc]
  simp only [wordAtPc, hd]

/-- A core cannot fetch, or fetches a word that does not decode, or stands at an instruction. -/
theorem fetch_trichotomy (s : State) :
    ¬ s.CanFetch ∨ (s.CanFetch ∧ decode (wordAtPc s) = none) ∨ ∃ i, s.At i := by
  by_cases hc : s.CanFetch
  · cases hd : decode (wordAtPc s) with
    | none => exact .inr (.inl ⟨hc, rfl⟩)
    | some i => exact .inr (.inr ⟨i, hc, hd⟩)
  · exact .inl hc

/-- Only a running core has a next state. -/
theorem running_of_step_next (h : step s = .next t) : s.Running := by
  cases hf : s.fault with
  | none => exact hf
  | some r => rw [step_of_halted hf] at h; cases h

/-- The word at `pc` is the word of the instruction there. -/
theorem encode_of_at (h : s.At i) : encode i = wordAtPc s := encode_of_decode h.2

end Steps

/-! ### Instructions with a fault condition -/

/-- A key skip on an index of 6 or more is the fault. -/
theorem State.keySkip_of_ge {s : State} {n : RegNo} (h : 6 ≤ s.regNat n) (i : Instr) (v : Bool) :
    s.keySkip i n v = s.raiseIn .invalidKeyIndex i := by
  rw [State.keySkip, State.keyIndex_of_ge h]

/-- A key skip on an index below 6 is a skip on that key's latch. -/
theorem State.keySkip_of_lt {s : State} {n : RegNo} (h : s.regNat n < 6) (i : Instr) (v : Bool) :
    s.keySkip i n v = s.skipIf (s.key ⟨s.regNat n, h⟩ == v) := by
  rw [State.keySkip, State.keyIndex_of_lt h]

/-- `DIV` by zero is the fault. -/
theorem exec_div_of_eq_zero {z : RegNo} {s : State} (h : s.regNat z = 0) (y : RegNo) :
    exec (.div y z) s = .next (s.raiseIn .arithmetic (.div y z)) := by
  rw [exec, execDiv, if_pos h]

/-- `DIG` on a glyph that leaves memory is the fault, on any geometry. -/
theorem State.drawDigit_of_lt {g : Geometry} {s : State} {x : RegNo}
    (h : g.memSize < g.fontStart + s.regNat x * 32 + 32) (y z : RegNo) :
    s.drawDigit g x y z = s.raiseIn .addressing (.dig x y z) := by
  rw [State.drawDigit, State.glyph_eq_none h]

theorem exec_dig_of_lt {s : State} {x : RegNo}
    (h : Config.geometry.memSize < Config.geometry.fontStart + s.regNat x * 32 + 32) (y z : RegNo) :
    exec (.dig x y z) s = .next (s.raiseIn .addressing (.dig x y z)) := by
  rw [exec, execDig, State.drawDigit_of_lt h]

/-- `DIG` on a glyph that lies in memory is a blit of its 32 bytes. -/
theorem exec_dig_of_le {s : State} {x : RegNo}
    (h : Config.geometry.fontStart + s.regNat x * 32 + 32 ≤ Config.geometry.memSize) (y z : RegNo) :
    exec (.dig x y z) s = .next (s.setFb (blit (keyedInk s.fReg)
      (s.mem.readList (Config.geometry.fontStart + s.regNat x * 32) 32) (s.regNat y) (s.regNat z) s.fb)) := by
  rw [exec, execDig, State.drawDigit, State.glyph_eq_some h]

/-- `DRW` is a blit of its sprite's 32 bytes, which lie in memory. -/
theorem exec_drw_eq (x : Nibble) (y z : RegNo) (s : State) :
    exec (.drw x y z) s = .next (s.setFb (blit opaqueInk
      (s.mem.readList (Config.geometry.spriteStart + x.toNat * 32) 32) (s.regNat y) (s.regNat z) s.fb)) := by
  rw [exec, execDrw, State.drawSprite, State.sprite_in_memory]

/-- `NUM` draws the glyphs of its digits, which lie in memory, side by side. -/
theorem exec_num_eq (x y z : RegNo) (s : State) :
    exec (.num x y z) s = .next (s.setFb (blitRow (keyedInk s.fReg) (s.regNat y) (s.regNat z)
      ((decimalDigits (s.regNat x)).map fun d => s.mem.readList (Config.geometry.fontStart + d * 32) 32) s.fb)) := by
  rw [exec, execNum, State.drawNumber, State.digits_in_memory]

/-- Where the fault condition of an instruction holds, its execute phase is that fault and nothing else. -/
theorem exec_of_executeFault {i : Instr} {s : State} {k : FaultKind} (h : executeFault s i = some k) :
    exec i s = .next (s.raiseIn k i) := by
  cases i with
  | div y z =>
    simp only [executeFault, Option.ite_none_right_eq_some, Option.some.injEq] at h
    obtain ⟨hc, rfl⟩ := h
    exact exec_div_of_eq_zero hc y
  | skp n | sknp n =>
    simp only [executeFault, Option.ite_none_right_eq_some, Option.some.injEq] at h
    obtain ⟨hc, rfl⟩ := h
    exact congrArg Host.Outcome.next (State.keySkip_of_ge hc _ _)
  | dig x y z =>
    simp only [executeFault, Option.ite_none_right_eq_some, Option.some.injEq] at h
    obtain ⟨hc, rfl⟩ := h
    exact exec_dig_of_lt hc y z
  | _ => cases h

/-! ### The one write of an instruction that completes -/

/-- The write of an instruction that completes: `pc`, a register (`RND` also counts its draw), the low four bits of
`f_reg` or `loop_point`, or a framebuffer that is blank or has glyphs drawn on it. -/
inductive Write (s : State) : State → Prop
  | setPc (a : Word) : Write s (s.setPc a)
  | setReg (r : RegNo) (v : Byte) : Write s (s.setReg r v)
  | draw (r : RegNo) (v : Byte) (n : Nat) : Write s ((s.setReg r v).setDrawCount n)
  | setFReg (n : Nibble) : Write s (s.setFReg (litByte n))
  | setLoopPoint (n : Nibble) : Write s (s.setLoopPoint (litWord n))
  | blank : Write s (s.setFb Framebuffer.blank)
  | sprite (g : List Byte) (x y : Nat) : Write s (s.setFb (blit opaqueInk g x y s.fb))
  | glyphs (gs : List (List Byte)) (x y : Nat) : Write s (s.setFb (blitRow (keyedInk s.fReg) x y gs s.fb))

theorem Write.skipIf (s : State) (c : Bool) : Write s (s.skipIf c) :=
  s.skipIf_eq c ▸ .setPc _

theorem Write.glyph (s : State) (g : List Byte) (x y : Nat) : Write s (s.setFb (blit (keyedInk s.fReg) g x y s.fb)) :=
  .glyphs [g] x y

/-- An instruction whose fault condition does not hold is one write. -/
theorem exec_write {i : Instr} {s : State} (hf : executeFault s i = none) : ∃ t, exec i s = .next t ∧ Write s t := by
  cases i with
  | nop => exact ⟨_, rfl, .setPc s.pc⟩
  | jp nnn => exact ⟨_, rfl, .setPc _⟩
  | rsk x y z => exact ⟨_, exec_rsk_eq x y z s, .setPc _⟩
  | se y z | sne y z | sgt y z | sova y z | sovb y z | scol y z => exact ⟨_, rfl, .skipIf s _⟩
  | skp n | sknp n =>
    have hc : s.regNat n < 6 := by simpa [executeFault] using hf
    exact ⟨_, congrArg Host.Outcome.next (State.keySkip_of_lt hc _ _), .skipIf s _⟩
  | ldi x nn | addi x nn | subi x nn => exact ⟨_, rfl, .setReg x _⟩
  | mov y z | add y z | sub y z | mul y z => exact ⟨_, rfl, .setReg y _⟩
  | div y z =>
    have hc : s.regNat z ≠ 0 := by simpa [executeFault] using hf
    exact ⟨_, exec_div_of_ne_zero hc y, .setReg y _⟩
  | rnd n => exact ⟨_, rfl, .draw n _ _⟩
  | setf n | setfr n => exact ⟨_, rfl, .setFReg _⟩
  | lpi n | lpr n => exact ⟨_, rfl, .setLoopPoint _⟩
  | cls => exact ⟨_, rfl, .blank⟩
  | drw x y z => exact ⟨_, exec_drw_eq x y z s, .sprite _ _ _⟩
  | num x y z => exact ⟨_, exec_num_eq x y z s, .glyphs _ _ _⟩
  | dig x y z =>
    have hc : Config.geometry.fontStart + s.regNat x * 32 + 32 ≤ Config.geometry.memSize := by
      simpa [executeFault] using hf
    exact ⟨_, exec_dig_of_le hc y z, .glyph s _ _ _⟩

/-- An instruction that completes leaves the fault latch alone. -/
theorem Write.fault_eq {s t : State} (h : Write s t) : t.fault = s.fault := by
  cases h <;> rfl

/-! ### How a step ends, by the closed list of faults -/

section Outcomes

variable {s t : State} {i : Instr} {r : FaultRecord}

theorem tickFault_of_not_canFetch (hc : ¬ s.CanFetch) : tickFault s = some ⟨.addressing, none, some s.pc⟩ := if_neg hc

theorem tickFault_of_decode_none (hc : s.CanFetch) (hd : decode (wordAtPc s) = none) :
    tickFault s = some ⟨.unimplementedOpcode, some (wordAtPc s), some s.pc⟩ :=
  (if_pos hc).trans (by rw [hd])

theorem tickFault_of_at (h : s.At i) :
    tickFault s = (executeFault s i).map fun k => ⟨k, some (wordAtPc s), some s.pc⟩ :=
  (if_pos h.1).trans (by rw [show decode (wordAtPc s) = some i from h.2])

/-- A step at an instruction whose fault condition holds is that fault, after the advance. -/
theorem step_of_executeFault {k : FaultKind} (hr : s.Running) (h : s.At i) (hk : executeFault s i = some k) :
    step s = .next (s.advance.setFault (some ⟨k, some (wordAtPc s), some s.pc⟩)) := by
  rw [step_of_at hr h, exec_of_executeFault (s := s.advance) hk, State.raiseIn_advance, encode_of_at h]

/-- A step for which the closed list names a fault writes the latch, after the advance where a word was fetched. -/
theorem step_of_tickFault_some (hr : s.Running) (hf : tickFault s = some r) : r.address = some s.pc ∧
    ((r.opcode = none ∧ step s = .next (s.setFault (some r))) ∨
      (r.opcode = some (wordAtPc s) ∧ step s = .next (s.advance.setFault (some r)))) := by
  obtain hc | ⟨hc, hd⟩ | ⟨i, hi⟩ := fetch_trichotomy s
  · rw [tickFault_of_not_canFetch hc] at hf
    cases hf; exact ⟨rfl, .inl ⟨rfl, step_of_not_canFetch hr hc⟩⟩
  · rw [tickFault_of_decode_none hc hd] at hf
    cases hf; exact ⟨rfl, .inr ⟨rfl, step_of_decode_none hr hc hd⟩⟩
  · rw [tickFault_of_at hi, Option.map_eq_some_iff] at hf
    obtain ⟨k, hk, rfl⟩ := hf
    exact ⟨rfl, .inr ⟨rfl, step_of_executeFault hr hi hk⟩⟩

/-- A step for which the closed list names no fault runs the instruction at `pc`, which completes. -/
theorem step_of_tickFault_none (hr : s.Running) (hf : tickFault s = none) :
    ∃ t, step s = .next t ∧ Write s.advance t := by
  obtain hc | ⟨hc, hd⟩ | ⟨i, hi⟩ := fetch_trichotomy s
  · rw [tickFault_of_not_canFetch hc] at hf; cases hf
  · rw [tickFault_of_decode_none hc hd] at hf; cases hf
  · rw [tickFault_of_at hi, Option.map_eq_none_iff] at hf
    rw [step_of_at hr hi]
    exact exec_write (s := s.advance) hf

/-- Every step with a next state writes the latch, or writes it after the advance, or is one write after the advance. -/
theorem step_next_cases (h : step s = .next t) :
    (∃ r, t = s.setFault (some r)) ∨ (∃ r, t = s.advance.setFault (some r)) ∨ Write s.advance t := by
  have hr := running_of_step_next h
  cases hf : tickFault s with
  | none =>
    obtain ⟨u, hu, hw⟩ := step_of_tickFault_none hr hf
    cases hu.symm.trans h
    exact .inr (.inr hw)
  | some r =>
    obtain ⟨-, ⟨-, hu⟩ | ⟨-, hu⟩⟩ := step_of_tickFault_some hr hf
    · cases hu.symm.trans h; exact .inl ⟨r, rfl⟩
    · cases hu.symm.trans h; exact .inr (.inl ⟨r, rfl⟩)

end Outcomes

/-! ### The frame of a fault -/

/-- A write of the latch changes no other part of the state. -/
theorem onlyParts_setFault (s : State) (f : Option FaultRecord) : OnlyParts [.fault] s (s.setFault f) := by
  intro p hp
  cases p with
  | fault => exact absurd List.mem_cons_self hp
  | _ => rfl

/-- A fault after the advance leaves its record, the advanced `pc`, and every other part of the state. -/
theorem advance_setFault_leaves (s : State) (r : FaultRecord) :
    (s.advance.setFault (some r)).fault = some r ∧
      (s.advance.setFault (some r)).pc.toNat = (s.pc.toNat + 2) % 65536 ∧
      OnlyParts [.pc, .fault] s (s.advance.setFault (some r)) := by
  refine ⟨rfl, s.advance_pc_toNat, fun p hp => ?_⟩
  cases p with
  | pc | fault => simp at hp
  | _ => rfl

/-- The opcode map's number of an instruction, as a word, is the instruction's word. -/
theorem ofNat_tableNumber (i : Instr) : BitVec.ofNat 16 (tableNumber i) = encode i := by
  rw [← encode_toNat, BitVec.ofNat_toNat, BitVec.setWidth_eq]

/-- A step at an instruction whose fault condition holds latches that fault with the instruction's word. -/
theorem step_faults_of_at {s : State} {i : Instr} {k : FaultKind} (hr : s.Running) (h : s.At i)
    (hk : executeFault s i = some k) : ∃ t, step s = .next t ∧
      t.fault = some ⟨k, some (BitVec.ofNat 16 (tableNumber i)), some s.pc⟩ ∧
      t.pc.toNat = (s.pc.toNat + 2) % 65536 ∧ OnlyParts [.pc, .fault] s t := by
  rw [ofNat_tableNumber, encode_of_at h]
  exact ⟨_, step_of_executeFault hr h hk, advance_setFault_leaves s _⟩

/-! ### The statements -/

/-- Settles O7: the fetch is the two bytes at `pc`, and its fields are the halves of each. -/
theorem fetchIsBigEndian : Obligations.FetchIsBigEndian := by
  intro g s h
  have hhi := (s.readByte s.pc.toNat).isLt
  have hlo := (s.readByte (s.pc.toNat + 1)).isLt
  refine ⟨_, State.fetchIn_eq_some h, wordOfBytes_toNat _ _, ?_⟩
  rw [fieldD1_toNat, fieldD2_toNat, fieldD3_toNat, fieldD4_toNat, wordOfBytes_toNat]
  omega

/-- Settles O8: the step is one write of the latch. -/
theorem fetchPastMemoryFaults : Obligations.FetchPastMemoryFaults := fun s hr h =>
  ⟨_, step_of_not_canFetch hr (Nat.not_lt.2 h), rfl, onlyParts_setFault s _⟩

/-- Settles O9: the advance of the fetch is the write of `pc + 2`. -/
theorem stepRunsTheDecodedInstruction : Obligations.StepRunsTheDecodedInstruction := by
  intro s i hr h
  have hpc : BitVec.ofNat 16 (s.pc.toNat + 2) = s.pc + 2 := by
    apply BitVec.eq_of_toNat_eq; rw [BitVec.toNat_ofNat, BitVec.toNat_add]; rfl
  rw [hpc]
  exact step_of_at hr h

/-- Settles O10: a word that selects no row does not decode, and the step is that fault after the advance. -/
theorem illegalWordFaults : Obligations.IllegalWordFaults := by
  intro s hr hc hw
  have hd : decode (wordAtPc s) = none := by
    rw [← Option.not_isSome_iff_eq_none, decoderAcceptsExactlyTheTable, hw]
    exact Bool.false_ne_true
  exact ⟨_, step_of_decode_none hr hc hd, advance_setFault_leaves s _⟩

/-- Settles O15: by whether the closed list names a fault. -/
theorem runningCoreAlwaysSteps : Obligations.RunningCoreAlwaysSteps := by
  intro s hr
  cases hf : tickFault s with
  | none =>
    obtain ⟨t, ht, hw⟩ := step_of_tickFault_none hr hf
    exact ⟨t, ht, hw.fault_eq.trans hr⟩
  | some r =>
    obtain ⟨-, ⟨-, ht⟩ | ⟨-, ht⟩⟩ := step_of_tickFault_some hr hf
    · exact ⟨_, ht, rfl⟩
    · exact ⟨_, ht, rfl⟩

/-- The latch after a step is the closed list's. -/
theorem fault_of_step_next {s t : State} (h : step s = .next t) : t.fault = tickFault s := by
  obtain ⟨u, hu, hf⟩ := runningCoreAlwaysSteps s (running_of_step_next h)
  cases hu.symm.trans h
  exact hf

/-- Settles O16: the latch's record is the one the closed list names, and the step is that write of the latch. -/
theorem faultsArePrecise : Obligations.FaultsArePrecise := by
  intro s t r h hf
  rw [fault_of_step_next h] at hf
  obtain ⟨ha, ⟨ho, ht⟩ | ⟨ho, ht⟩⟩ := step_of_tickFault_some (running_of_step_next h) hf
  · cases ht.symm.trans h
    exact ⟨fun p hp => onlyParts_setFault s _ p (mt (List.mem_cons_of_mem _) hp), ha, .inl ⟨ho, rfl⟩⟩
  · cases ht.symm.trans h
    obtain ⟨-, hpc, frame⟩ := advance_setFault_leaves s r
    exact ⟨frame, ha, .inr ⟨ho, hpc⟩⟩

/-- Settles O32: `DIV`'s fault condition is a zero divisor. -/
theorem divByZeroFaults : Obligations.DivByZeroFaults := fun _ _ _ hr h hz =>
  step_faults_of_at hr h (if_pos hz)

/-- Settles O41: the fault condition of both is an index of 6 or more. -/
theorem badKeyIndexFaults : Obligations.BadKeyIndexFaults := fun _ _ hr hn =>
  ⟨fun h => step_faults_of_at hr h (if_pos hn), fun h => step_faults_of_at hr h (if_pos hn)⟩

/-- Settles O34: the zero word is `NOP`'s own, and its execute phase is the state it is given. -/
theorem nopOnlyAdvances : Obligations.NopOnlyAdvances :=
  ⟨fun w => decode_eq_some_iff.trans eq_comm, fun s => ⟨s, rfl, fun p _ => by cases p <;> rfl⟩, fun s hr h =>
    ⟨s.advance, step_of_at hr h, s.advance_pc_toNat, onlyParts_setPc s _⟩⟩

end Sys2Proof.Machine
end

section
/-! 10_state.md, R17 to R23; 40_step_dispatch.md, R66; 60_exceptions.md, R128: what no step changes, what every step and
every host operation keeps, where each leaves `pc`, and what a halted core refuses. -/

namespace Sys2Proof.Machine

open Sys2Proof.Claims

/-! ### Where `pc` stands -/

/-- `pc` after a skip, as a number, by the condition that the test decides. -/
theorem State.skipIf_pc_toNat {c : Prop} [Decidable c] {b : Bool} (h : b = true ↔ c) (s : State) :
    (s.skipIf b).pc.toNat = if c then (s.pc.toNat + 2) % 65536 else s.pc.toNat := by
  obtain ⟨hskip, hstay, -⟩ := skipsIf_skipIf h s
  split
  · exact hskip ‹c›
  · rw [hstay ‹¬c›]

theorem condEqual_iff_toNat (y z : Byte) : condEqual y z = true ↔ y.toNat = z.toNat := by
  rw [condEqual_iff, BitVec.toNat_inj]

/-- The execute phase leaves `pc` where the rule says (10_state.md R17). -/
theorem exec_pc {i : Instr} {s t : State} (h : exec i s = .next t) :
    t.pc.toNat = pcAfterExecute s s.pc.toNat i := by
  cases i with
  | nop | cls | ldi | addi | subi | mov | add | sub | mul | setf | setfr | rnd | lpr | lpi => cases h; rfl
  | jp nnn => cases h; exact jumpTarget_toNat nnn
  | div y z =>
    by_cases hz : s.regNat z = 0
    · cases (exec_div_of_eq_zero hz y).symm.trans h; rfl
    · cases (exec_div_of_ne_zero hz y).symm.trans h; rfl
  | se y z => cases h; exact State.skipIf_pc_toNat (condEqual_iff_toNat _ _) s
  | sne y z =>
    cases h
    have hb : (!condEqual (s.reg y) (s.reg z)) = true ↔ ¬ s.regNat y = s.regNat z := by
      rw [Bool.not_eq_true', ← Bool.not_eq_true, condEqual_iff_toNat]; rfl
    rw [pcAfterExecute, ← ite_not]
    exact State.skipIf_pc_toNat hb s
  | sgt y z => cases h; exact State.skipIf_pc_toNat (condGreater_iff _ _) s
  | sova y z => cases h; exact State.skipIf_pc_toNat Iff.rfl s
  | sovb y z => cases h; exact State.skipIf_pc_toNat Iff.rfl s
  | scol y z =>
    cases h
    have hb := condCollide_iff (s.reg y) (s.reg z)
    rw [← BitVec.toNat_inj] at hb
    exact State.skipIf_pc_toNat hb s
  | skp n =>
    obtain hn | hn := Nat.lt_or_ge (s.regNat n) 6
    · cases (congrArg Host.Outcome.next (State.keySkip_of_lt hn _ _)).symm.trans h
      rw [pcAfterExecute, dif_pos hn]
      exact State.skipIf_pc_toNat beq_iff_eq s
    · cases (exec_of_executeFault (i := .skp n) (if_pos hn)).symm.trans h
      rw [pcAfterExecute, dif_neg (Nat.not_lt.2 hn)]; rfl
  | sknp n =>
    obtain hn | hn := Nat.lt_or_ge (s.regNat n) 6
    · cases (congrArg Host.Outcome.next (State.keySkip_of_lt hn _ _)).symm.trans h
      rw [pcAfterExecute, dif_pos hn, ← ite_not]
      exact State.skipIf_pc_toNat (beq_iff_eq.trans (iff_of_eq (Bool.not_eq_true _)).symm) s
    · cases (exec_of_executeFault (i := .sknp n) (if_pos hn)).symm.trans h
      rw [pcAfterExecute, dif_neg (Nat.not_lt.2 hn)]; rfl
  | rsk x y z =>
    cases (exec_rsk_eq x y z s).symm.trans h
    rw [pcAfterExecute, State.setPc_pc]
    simp only [State.regNat_eq, BitVec.toNat_inj]
    split
    · rfl
    · rw [BitVec.toNat_add, rskOffset_toNat]
  | drw x y z => cases (exec_drw_eq x y z s).symm.trans h; rfl
  | num x y z => cases (exec_num_eq x y z s).symm.trans h; rfl
  | dig x y z =>
    obtain hc | hc := Nat.lt_or_ge Config.geometry.memSize (Config.geometry.fontStart + s.regNat x * 32 + 32)
    · cases (exec_dig_of_lt hc y z).symm.trans h; rfl
    · cases (exec_dig_of_le hc y z).symm.trans h; rfl

/-- A step leaves `pc` where the rule says. -/
theorem step_pc {s t : State} (h : step s = .next t) : t.pc.toNat = pcAfterTick s := by
  have hr := running_of_step_next h
  obtain hc | ⟨hc, hd⟩ | ⟨i, hi⟩ := fetch_trichotomy s
  · cases (step_of_not_canFetch hr hc).symm.trans h
    exact (if_neg hc).symm
  · cases (step_of_decode_none hr hc hd).symm.trans h
    refine s.advance_pc_toNat.trans (Eq.trans ?_ (if_pos hc).symm)
    rw [hd]
  · refine (exec_pc ((step_of_at hr hi).symm.trans h)).trans (Eq.trans ?_ (if_pos hi.1).symm)
    rw [show decode (wordAtPc s) = some i from hi.2, s.advance_pc_toNat]
    rfl

/-- After an instruction that is no jump to an odd address, an even advanced `pc` is even. -/
theorem pcAfterExecute_even {i : Instr} {a : Nat} (s : State) (ha : a % 2 = 0)
    (hi : ∀ nnn, i = .jp nnn → nnn.toNat % 2 = 0) : pcAfterExecute s a i % 2 = 0 := by
  cases i with
  | jp nnn => exact hi nnn rfl
  | se | sne | sgt | sova | sovb | scol | rsk => simp only [pcAfterExecute]; split <;> omega
  | skp | sknp =>
    simp only [pcAfterExecute]
    split
    · split <;> omega
    · exact ha
  | _ => exact ha

/-! ### What no step changes -/

/-- The one write of an instruction that completes leaves the timer, the keys and memory alone. -/
theorem Write.timer_keys_mem {s t : State} (h : Write s t) : t.dt = s.dt ∧ t.keys = s.keys ∧ t.mem = s.mem := by
  cases h <;> exact ⟨rfl, rfl, rfl⟩

theorem step_timer_keys_mem {s t : State} (h : step s = .next t) : t.dt = s.dt ∧ t.keys = s.keys ∧ t.mem = s.mem := by
  obtain ⟨r, rfl⟩ | ⟨r, rfl⟩ | hw := step_next_cases h
  · exact ⟨rfl, rfl, rfl⟩
  · exact ⟨rfl, rfl, rfl⟩
  · exact hw.timer_keys_mem

/-! ### What no step observes -/

/-- The timer and `loop_point` written together: the two registers that no instruction reads. -/
def State.setHidden (s : State) (d v : Word) : State := (s.setDt d).setLoopPoint v

theorem exec_setHidden_of_next {i : Instr} {s t : State} {d v w : Word}
    (h : exec i s = .next t) (hd : exec i (s.setHidden d v) = .next (t.setHidden d w)) :
    exec i (s.setHidden d v) = mapNext (fun t => t.setHidden d w) (exec i s) := by
  rw [hd, h]; rfl

/-- An instruction reads neither register: it leaves in `loop_point` a value that is the same whatever the timer holds,
and does otherwise what it does in `s`. -/
theorem exec_setHidden (i : Instr) (s : State) (v : Word) :
    ∃ w, ∀ d, exec i (s.setHidden d v) = mapNext (fun t => t.setHidden d w) (exec i s) := by
  cases hf : executeFault s i with
  | some k =>
    exact ⟨v, fun d => exec_setHidden_of_next (exec_of_executeFault hf) (exec_of_executeFault (s := s.setHidden d v) hf)⟩
  | none =>
    cases i with
    | lpr n => exact ⟨litWord (lowNibble (s.reg n)), fun _ => rfl⟩
    | lpi n => exact ⟨litWord n, fun _ => rfl⟩
    | nop | cls | jp | ldi | addi | subi | mov | add | sub | mul | setf | setfr | rnd => exact ⟨v, fun _ => rfl⟩
    | se y z | sne y z | sgt y z | sova y z | sovb y z | scol y z =>
      exact ⟨v, fun d => exec_setHidden_of_next (congrArg Host.Outcome.next (State.skipIf_eq _ _))
        (congrArg Host.Outcome.next (State.skipIf_eq _ _))⟩
    | div y z =>
      have hc : s.regNat z ≠ 0 := by simpa [executeFault] using hf
      exact ⟨v, fun d => exec_setHidden_of_next (exec_div_of_ne_zero hc y)
        (exec_div_of_ne_zero (s := s.setHidden d v) hc y)⟩
    | skp n | sknp n =>
      have hc : s.regNat n < 6 := by simpa [executeFault] using hf
      exact ⟨v, fun d => exec_setHidden_of_next
        (congrArg Host.Outcome.next ((State.keySkip_of_lt hc _ _).trans (State.skipIf_eq _ _)))
        (congrArg Host.Outcome.next
          ((State.keySkip_of_lt (s := s.setHidden d v) hc _ _).trans (State.skipIf_eq _ _)))⟩
    | rsk x y z => exact ⟨v, fun d => exec_setHidden_of_next (exec_rsk_eq x y z s) (exec_rsk_eq x y z (s.setHidden d v))⟩
    | drw x y z => exact ⟨v, fun d => exec_setHidden_of_next (exec_drw_eq x y z s) (exec_drw_eq x y z (s.setHidden d v))⟩
    | num x y z => exact ⟨v, fun d => exec_setHidden_of_next (exec_num_eq x y z s) (exec_num_eq x y z (s.setHidden d v))⟩
    | dig x y z =>
      have hc : Config.geometry.fontStart + s.regNat x * 32 + 32 ≤ Config.geometry.memSize := by
        simpa [executeFault] using hf
      exact ⟨v, fun d => exec_setHidden_of_next (exec_dig_of_le hc y z) (exec_dig_of_le (s := s.setHidden d v) hc y z)⟩

/-- A step reads neither register: it leaves in `loop_point` a value that is the same whatever the timer holds, and does
otherwise what it does in `s`. -/
theorem step_setHidden (s : State) (v : Word) :
    ∃ w, ∀ d, step (s.setHidden d v) = mapNext (fun t => t.setHidden d w) (step s) := by
  cases hf : s.fault with
  | some r =>
    refine ⟨v, fun d => ?_⟩
    rw [step_of_halted hf, step_of_halted (s := s.setHidden d v) hf]; rfl
  | none =>
    obtain hc | ⟨hc, hd⟩ | ⟨i, hi⟩ := fetch_trichotomy s
    · refine ⟨v, fun d => ?_⟩
      rw [step_of_not_canFetch hf hc, step_of_not_canFetch (s := s.setHidden d v) hf hc]; rfl
    · refine ⟨v, fun d => ?_⟩
      rw [step_of_decode_none hf hc hd, step_of_decode_none (s := s.setHidden d v) hf hc hd]; rfl
    · obtain ⟨w, hw⟩ := exec_setHidden i s.advance v
      refine ⟨w, fun d => ?_⟩
      rw [step_of_at hf hi, step_of_at (s := s.setHidden d v) hf hi]
      exact hw d

/-- Two changes of the next state that agree on the one the outcome has give the same outcome. -/
theorem mapNext_congr {f g : State → State} {o : Host.Outcome State Fault Refusal}
    (h : ∀ t, o = .next t → f t = g t) : mapNext f o = mapNext g o := by
  cases o with
  | next t => exact congrArg Host.Outcome.next (h t rfl)
  | _ => rfl

/-! ### The invariant -/

theorem opaqueInk_lt {n : Nibble} {v : Byte} (hv : v.toNat < 16) : ((opaqueInk n).getD v).toNat < 16 := by
  rw [opaqueInk]
  split
  · exact hv
  · exact (litByte_toNat n).trans_lt n.isLt

theorem keyedInk_lt {f v : Byte} {n : Nibble} (hf : f.toNat < 16) (hv : v.toNat < 16) :
    ((keyedInk f n).getD v).toNat < 16 := by
  rw [keyedInk]
  split
  · exact hf
  · exact hv

/-- Every pixel holds a colour 0..15 (10_state.md R22). -/
def Framebuffer.Colours (fb : Framebuffer) : Prop := ∀ x y, (fb.pixel x y).toNat < 16

/-- An ink that writes colours over colours draws a glyph in colours. -/
theorem colours_blit {ink : Ink} (hink : ∀ n v, v.toNat < 16 → ((ink n).getD v).toNat < 16) {fb : Framebuffer}
    (hfb : Framebuffer.Colours fb) (g : List Byte) (x y : Nat) : Framebuffer.Colours (blit ink g x y fb) := by
  intro px py
  rw [pixel_blit]
  split
  · exact hink _ _ (hfb px py)
  · exact hfb px py

theorem colours_blitRow {ink : Ink} (hink : ∀ n v, v.toNat < 16 → ((ink n).getD v).toNat < 16) (gs : List (List Byte))
    (y : Nat) {x : Nat} {fb : Framebuffer} (hfb : Framebuffer.Colours fb) :
    Framebuffer.Colours (blitRow ink x y gs fb) := by
  induction gs generalizing x fb with
  | nil => exact hfb
  | cons g gs ih => exact ih (colours_blit hink hfb g x y)

/-- The one write of an instruction that completes keeps the invariant. -/
theorem Write.inv {s t : State} (h : Write s t) (hs : s.Inv) : t.Inv := by
  obtain ⟨⟨hf, hl, hp⟩, hm⟩ := hs
  cases h with
  | setPc | setReg | draw => exact ⟨⟨hf, hl, hp⟩, hm⟩
  | setFReg n => exact ⟨⟨(litByte_toNat n).trans_lt n.isLt, hl, hp⟩, hm⟩
  | setLoopPoint n => exact ⟨⟨hf, (litWord_toNat n).trans_lt n.isLt, hp⟩, hm⟩
  | blank => exact ⟨⟨hf, hl, fun x y => by rw [State.pixel_setFb, Framebuffer.pixel_blank]; decide⟩, hm⟩
  | sprite g x y => exact ⟨⟨hf, hl, colours_blit (fun _ _ => opaqueInk_lt) hp g x y⟩, hm⟩
  | glyphs gs x y => exact ⟨⟨hf, hl, colours_blitRow (fun _ _ => keyedInk_lt hf) gs y hp⟩, hm⟩

theorem step_inv {s t : State} (hs : s.Inv) (h : step s = .next t) : t.Inv := by
  obtain ⟨r, rfl⟩ | ⟨r, rfl⟩ | hw := step_next_cases h
  · exact hs
  · exact hs
  · exact hw.inv hs

/-! ### The statements -/

/-- Settles O18: no way a step ends writes the timer, the keys or memory. -/
theorem stepLeavesTimerKeysAndMemory : Obligations.StepLeavesTimerKeysAndMemory := by
  intro s t h
  obtain ⟨hd, hk, hm⟩ := step_timer_keys_mem h
  exact ⟨hd, fun k => by rw [State.key, hk]; rfl, fun a => congrArg (Memory.read · a) hm⟩

/-- Settles O19: the answer reads `pc` and the latch, and each is the rule's. -/
theorem tickReturnsPcOrRecord : Obligations.TickReturnsPcOrRecord := by
  intro s t _ h
  rw [← fault_of_step_next h, ← step_pc h, BitVec.ofNat_toNat, BitVec.setWidth_eq, HostOp.result, State.tickReturn]
  cases t.fault <;> rfl

/-- Settles O20: a fetch fault leaves `pc`, and every other step is the rule on an even advanced `pc`. -/
theorem onlyOddJumpsMakePcOdd : Obligations.OnlyOddJumpsMakePcOdd := by
  intro s t hs hj h
  rw [step_pc h, pcAfterTick]
  split
  · split
    · omega
    · exact pcAfterExecute_even s (by omega) fun nnn hi => hj nnn ⟨‹_›, hi ▸ ‹_›⟩
  · exact hs

/-- Settles O21: with `loop_point` left as it is, the value in it afterwards is the step's own. -/
theorem timerIsNotObserved : Obligations.TimerIsNotObserved := by
  intro s d
  obtain ⟨w, hw⟩ := step_setHidden s s.loopPoint
  refine (hw d).trans (mapNext_congr fun t ht => ?_)
  have hself := hw s.dt
  rw [show s.setHidden s.dt s.loopPoint = s from rfl, ht] at hself
  have hl : t.loopPoint = w := congrArg State.loopPoint (Host.Outcome.next.inj hself)
  rw [← hl]; rfl

/-- Settles O22: with the timer left as it is, no step writes it. -/
theorem loopPointIsNotObserved : Obligations.LoopPointIsNotObserved := by
  intro s v
  obtain ⟨w, hw⟩ := step_setHidden s v
  refine ⟨w, (hw s.dt).trans (mapNext_congr fun t ht => ?_)⟩
  rw [State.setHidden, ← (step_timer_keys_mem ht).1]; rfl

/-- Settles O24: the fields of the reset state, its blank framebuffer and its empty memory. -/
theorem resetMeetsTheInvariant : Obligations.ResetMeetsTheInvariant :=
  ⟨⟨by decide, by decide, fun x y => by rw [State.reset_pixel]; decide⟩, ⟨List.Pairwise.nil, by simp [State.reset]⟩,
    by simp [State.reset]⟩

/-- Settles O25: neither a fault nor the one write of an instruction leaves the ranges, and neither writes memory. -/
theorem stepKeepsTheInvariant : Obligations.StepKeepsTheInvariant := fun _ _ => step_inv

end Sys2Proof.Machine
end

section
/-! 20_memory.md, R38 to R44; 60_exceptions.md, R128 to R137; 70_reset_and_hazards.md, R150 to R160: what each operation
of the host writes, what a halted core refuses, and what every run keeps. -/

namespace Sys2Proof.Machine

open Sys2Proof.Claims

/-! ### Operations on a halted and on a running core -/

section Operations

variable {s t u : State} {op : HostOp} {r : FaultRecord} {k : Nat} {v : Bool}

theorem unlessHalted_of_halted (h : s.fault = some r) (o : Host.Outcome State Fault Refusal) :
    s.unlessHalted o = .fault (.halted r) := by
  rw [State.unlessHalted, h]

theorem unlessHalted_of_running (h : s.Running) (o : Host.Outcome State Fault Refusal) : s.unlessHalted o = o := by
  rw [State.unlessHalted, show s.fault = none from h]

/-- An operation that a halted core refuses has its next state only on a running one. -/
theorem eq_of_unlessHalted_eq_next (h : s.unlessHalted (.next u) = .next t) : t = u := by
  cases hf : s.fault with
  | none => rw [unlessHalted_of_running hf] at h; cases h; rfl
  | some r => rw [unlessHalted_of_halted hf] at h; cases h

theorem writeKey_of_lt (hk : k < 6) (s : State) (v : Bool) :
    s.writeKey k v = s.unlessHalted (.next (s.setKey ⟨k, hk⟩ v)) := dif_pos hk

theorem writeKey_of_ge (hk : 6 ≤ k) (s : State) (v : Bool) : s.writeKey k v = .refused (.keyOutOfRange k) :=
  dif_neg (Nat.not_lt.2 hk)

theorem setKey_of_writeKey_eq_next (h : s.writeKey k v = .next t) : ∃ hk : k < 6, t = s.setKey ⟨k, hk⟩ v := by
  obtain hk | hk := Nat.lt_or_ge k 6
  · rw [writeKey_of_lt hk] at h
    exact ⟨hk, eq_of_unlessHalted_eq_next h⟩
  · rw [writeKey_of_ge hk] at h; cases h

theorem hostOp_tick (s : State) : hostOp .tick s = step s := rfl

/-- A halted core refuses every operation within the host's duty but `RESET` and `GET_SCREEN` (60_exceptions.md R128). -/
theorem hostOp_of_halted (h : s.fault = some r) (hw : op.wellFormed = true) (hr : op ≠ .reset)
    (hg : op ≠ .getScreen) : hostOp op s = .fault (.halted r) := by
  cases op with
  | reset => exact absurd rfl hr
  | getScreen => exact absurd rfl hg
  | tick => exact (hostOp_tick s).trans (step_of_halted h)
  | load | setPc | tickDt => exact unlessHalted_of_halted h _
  | keyDown k | keyUp k => exact (writeKey_of_lt (of_decide_eq_true hw) s _).trans (unlessHalted_of_halted h _)

/-- An operation within the host's duty has an answer. -/
theorem hostCall_of_wellFormed (hw : op.wellFormed = true) (s : State) : ∃ t a, hostCall op s = .next (t, a) := by
  obtain ⟨t, h⟩ | ⟨r, -, h⟩ | ⟨hn, -⟩ := hostOp_cases op s
  · exact ⟨t, _, hostCall_of_next h⟩
  · exact ⟨s, _, hostCall_of_halted h⟩
  · exact absurd (hn.symm.trans hw) Bool.false_ne_true

/-! ### `LOAD` -/

theorem loadFits_iff (g : Geometry) (bytes : List Byte) (a b : Nat) :
    loadFits g bytes a b = true ↔ a ≤ b ∧ b - a = bytes.length ∧ b ≤ g.memSize := by
  simp [loadFits, and_assoc]

theorem loadIn_of_fits {g : Geometry} {bytes : List Byte} {a b : Nat}
    (h : a ≤ b ∧ b - a = bytes.length ∧ b ≤ g.memSize) (s : State) :
    s.loadIn g bytes a b = s.setMem (s.mem.writeList a bytes) := if_pos ((loadFits_iff ..).2 h)

theorem loadIn_of_not_fits {g : Geometry} {bytes : List Byte} {a b : Nat}
    (h : ¬(a ≤ b ∧ b - a = bytes.length ∧ b ≤ g.memSize)) (s : State) :
    s.loadIn g bytes a b = s.setFault (some ⟨.addressing, none, none⟩) := if_neg (mt (loadFits_iff ..).1 h)

/-- A `LOAD` of a running core is its copy or its fault. -/
theorem hostOp_load (hr : s.Running) (bytes : List Byte) (a b : Nat) :
    hostOp (.load bytes a b) s = .next (s.loadIn Config.geometry bytes a b) := unlessHalted_of_running hr _

theorem loadIn_inv (hs : s.Inv) (bytes : List Byte) (a b : Nat) : (s.loadIn Config.geometry bytes a b).Inv := by
  obtain ⟨hn, hwf, hb⟩ := hs
  by_cases h : a ≤ b ∧ b - a = bytes.length ∧ b ≤ Config.geometry.memSize
  · rw [loadIn_of_fits h]
    obtain ⟨hab, hl, hm⟩ := h
    exact ⟨hn, Memory.writeList_wf hwf a bytes, Memory.writeList_below hb (by omega)⟩
  · rw [loadIn_of_not_fits h]
    exact ⟨hn, hwf, hb⟩

/-! ### The invariant under a run -/

/-- Every operation of the host keeps the invariant. -/
theorem hostOp_inv (hs : s.Inv) (h : hostOp op s = .next t) : t.Inv := by
  cases op with
  | reset => cases h; exact resetMeetsTheInvariant
  | getScreen => cases h; exact hs
  | tick => exact step_inv hs h
  | setPc a => cases eq_of_unlessHalted_eq_next h; exact hs
  | tickDt => cases eq_of_unlessHalted_eq_next h; exact hs
  | load bytes a b => cases eq_of_unlessHalted_eq_next h; exact loadIn_inv hs bytes a b
  | keyDown k | keyUp k => obtain ⟨-, rfl⟩ := setKey_of_writeKey_eq_next h; exact hs

/-- So does every call, refused or not. -/
theorem hostCall_inv {a : HostResult} (hs : s.Inv) (h : hostCall op s = .next (t, a)) : t.Inv := by
  obtain ⟨u, hu⟩ | ⟨r, -, hu⟩ | ⟨-, r, hu⟩ := hostOp_cases op s
  · cases (hostCall_of_next hu).symm.trans h; exact hostOp_inv hs hu
  · cases (hostCall_of_halted hu).symm.trans h; exact hs
  · rw [hostCall, hu] at h; cases h

/-- A run that has a next state has one after its first call. -/
theorem hostRun_cons_cases {ops : List HostOp} (h : hostRun (op :: ops) s = .next t) :
    ∃ u a, hostCall op s = .next (u, a) ∧ hostRun ops u = .next t := by
  rw [hostRun] at h
  split at h
  · exact ⟨_, _, ‹_›, h⟩
  · cases h
  · cases h

end Operations

/-! ### The frame of each write -/

theorem onlyParts_setDt (s : State) (v : Word) : OnlyParts [.dt] s (s.setDt v) := by
  intro p hp
  cases p with
  | dt => exact absurd List.mem_cons_self hp
  | _ => rfl

theorem onlyParts_setDrawCount (s : State) (n : Nat) : OnlyParts [.drawCount] s (s.setDrawCount n) := by
  intro p hp
  cases p with
  | drawCount => exact absurd List.mem_cons_self hp
  | _ => rfl

theorem onlyParts_setKey (s : State) (k : Fin 6) (v : Bool) : OnlyParts [.key k] s (s.setKey k v) := by
  intro p hp
  cases p with
  | key j => exact (s.key_setKey k j v).trans (if_neg (by simpa using hp))
  | _ => rfl

/-- A key operation of a running core writes its latch and no other part of the state. -/
theorem writeKey_writes {s : State} (hr : s.Running) (k : Fin 6) (v : Bool) :
    ∃ t, s.writeKey k.val v = .next t ∧ t.key k = v ∧ OnlyParts [.key k] s t :=
  ⟨_, (writeKey_of_lt k.isLt s v).trans (unlessHalted_of_running hr _), (s.key_setKey k k v).trans (if_pos rfl),
    onlyParts_setKey s k v⟩

/-- A copy of bytes into memory reads back, and changes no other part of the state. -/
theorem setMem_writeList_copies {s : State} (hm : s.mem.wf) (a : Nat) (bytes : List Byte) :
    (∀ k, k < bytes.length → (s.setMem (s.mem.writeList a bytes)).readByte (a + k) = bytes.getD k 0) ∧
      OnlyChanges (fun p => ∃ k, k < bytes.length ∧ p = .byte (a + k)) s (s.setMem (s.mem.writeList a bytes)) := by
  refine ⟨fun k hk => ?_, fun p hp => ?_⟩
  · rw [State.readByte_setMem, Memory.read_writeList hm, if_pos (by omega), Nat.add_sub_cancel_left]
  · cases p with
    | byte b =>
      have hb : ¬(a ≤ b ∧ b < a + bytes.length) := fun h =>
        hp ⟨b - a, by omega, congrArg Part.byte (by omega)⟩
      exact (Memory.read_writeList hm a bytes b).trans (if_neg hb)
    | _ => rfl

/-- What memory holds after an instruction's two bytes are written. -/
theorem read_writeList_encodeBytes {m : Memory} (hm : m.wf) (a : Nat) (i : Instr) (b : Nat) :
    (m.writeList a (encodeBytes i)).read b =
      if b = a then highByte (encode i) else if b = a + 1 then lowByte (encode i) else m.read b := by
  have h : (m.writeList a (encodeBytes i)).read b =
      if b = a + 1 then lowByte (encode i) else if b = a then highByte (encode i) else m.read b := by
    rw [← Memory.read_write hm]
    exact Memory.read_write (Memory.write_wf hm a _) (a + 1) b _
  rw [h]
  split
  · rw [if_neg (by omega)]
  · rfl

/-- After an instruction's two bytes are written at `pc`, the instruction at `pc` is that one. -/
theorem at_setMem_encodeBytes {s : State} (hm : s.mem.wf) (hc : s.CanFetch) (i : Instr) :
    (s.setMem (s.mem.writeList s.pc.toNat (encodeBytes i))).At i := by
  have read := read_writeList_encodeBytes hm s.pc.toNat i
  refine ⟨hc, decode_eq_some_iff.2 ?_⟩
  rw [State.readByte_setMem, State.readByte_setMem, State.setMem_pc, read, read, if_pos rfl, if_neg (by omega),
    if_pos rfl, wordOfBytes_split]

/-! ### The statements -/

/-- Settles O11: the refusals, each by its operation; `GET_SCREEN` and `RESET` do not read the latch. -/
theorem haltedCoreTakesNoStep : Obligations.HaltedCoreTakesNoStep := fun s _ h =>
  ⟨step_of_halted h, fun _ _ _ => unlessHalted_of_halted h _, fun _ => unlessHalted_of_halted h _,
    unlessHalted_of_halted h _,
    fun _ hk => ⟨(writeKey_of_lt hk s _).trans (unlessHalted_of_halted h _),
      (writeKey_of_lt hk s _).trans (unlessHalted_of_halted h _)⟩,
    rfl, _, rfl, rfl⟩

/-- Settles O12: `GET_SCREEN` leaves the state, every other operation is refused, and the run goes on from there. -/
theorem refusedOperationsChangeNothing : Obligations.RefusedOperationsChangeNothing := by
  intro op s r h hw hr
  have call : hostCall op s = .next (s, if op = .getScreen then .screen s.fb else .failed r) := by
    by_cases hg : op = .getScreen
    · subst hg; rfl
    · rw [if_neg hg]; exact hostCall_of_halted (hostOp_of_halted h hw hr hg)
  exact ⟨call, hostRun_cons call⟩

/-- Settles O13, by induction on the operations: each call has an answer and the run goes on. -/
theorem dutifulRunsComplete : Obligations.DutifulRunsComplete := by
  intro ops
  induction ops with
  | nil => exact fun s _ => ⟨s, rfl⟩
  | cons op ops ih =>
    intro s hw
    obtain ⟨t, a, h⟩ := hostCall_of_wellFormed (hw op List.mem_cons_self) s
    rw [hostRun_cons h]
    exact ih t fun o ho => hw o (List.mem_cons_of_mem _ ho)

/-- Settles O14: the index is checked before the latch is read. -/
theorem badKeyCallsHaveNoMove : Obligations.BadKeyCallsHaveNoMove := by
  intro k s hk
  have down : hostOp (.keyDown k) s = .refused (.keyOutOfRange k) := writeKey_of_ge hk s true
  have up : hostOp (.keyUp k) s = .refused (.keyOutOfRange k) := writeKey_of_ge hk s false
  rw [hostCall, hostCall, down, up]
  exact ⟨rfl, rfl⟩

/-- Settles O17, by the operation: `TICK` by the rule of the step, and no other but `RESET` and `SET_PC` writes `pc`. -/
theorem pcChangesOnlyByTheRule : Obligations.PcChangesOnlyByTheRule := by
  intro op s t h
  cases op with
  | reset => cases h; rfl
  | getScreen => cases h; rfl
  | tick => exact step_pc h
  | setPc a => cases eq_of_unlessHalted_eq_next h; rfl
  | tickDt => cases eq_of_unlessHalted_eq_next h; rfl
  | load bytes a b =>
    cases eq_of_unlessHalted_eq_next h
    rw [State.loadIn]
    split <;> rfl
  | keyDown k | keyUp k => obtain ⟨-, rfl⟩ := setKey_of_writeKey_eq_next h; rfl

/-- Settles O26, by induction on the operations: each call keeps the invariant. -/
theorem hostRunsKeepTheInvariant : Obligations.HostRunsKeepTheInvariant := by
  intro ops
  induction ops with
  | nil => intro s t hs h; cases h; exact hs
  | cons op ops ih =>
    intro s t hs h
    obtain ⟨u, a, hu, hrest⟩ := hostRun_cons_cases h
    exact ih u t (hostCall_inv hs hu) hrest

/-- Settles O51: the load is one copy of bytes. -/
theorem loadCopiesItsBytes : Obligations.LoadCopiesItsBytes := by
  intro bytes a b s hr hm hab hl hb
  rw [hostOp_load hr, loadIn_of_fits ⟨hab, hl, hb⟩]
  exact ⟨_, rfl, setMem_writeList_copies hm.1 a bytes⟩

/-- Settles O52: the load is one write of the latch. -/
theorem badLoadFaults : Obligations.BadLoadFaults := by
  intro bytes a b s hr h
  rw [hostOp_load hr, loadIn_of_not_fits (by omega)]
  exact ⟨_, rfl, rfl, onlyParts_setFault s _⟩

/-- Settles O53: the load is the copy of the two bytes, and the tick runs the instruction that then stands at `pc`. -/
theorem loadedInstructionRunsNext : Obligations.LoadedInstructionRunsNext := by
  intro i s hr hm hc
  have fits : s.pc.toNat ≤ s.pc.toNat + 2 ∧ s.pc.toNat + 2 - s.pc.toNat = (encodeBytes i).length ∧
      s.pc.toNat + 2 ≤ Config.geometry.memSize := ⟨Nat.le_add_right _ _, Nat.add_sub_cancel_left _ _, hc⟩
  have load := (hostOp_load hr (encodeBytes i) s.pc.toNat (s.pc.toNat + 2)).trans
    (congrArg Host.Outcome.next (loadIn_of_fits fits s))
  obtain ⟨t, ht⟩ := exec_next i (s.setMem (s.mem.writeList s.pc.toNat (encodeBytes i))).advance
  have tick := (step_of_at (by exact hr) (at_setMem_encodeBytes hm.1 hc i)).trans ht
  refine ⟨_, t, ?_, Memory.writeList_wf hm.1 _ _, read_writeList_encodeBytes hm.1 _ i, ht⟩
  rw [hostRun_cons (hostCall_of_next load), hostRun_cons (hostCall_of_next ((hostOp_tick _).trans tick)), hostRun]

/-- Settles O54: each is one write. -/
theorem hostWritesOneRegister : Obligations.HostWritesOneRegister := fun s hr =>
  ⟨fun a => ⟨_, unlessHalted_of_running hr _, rfl, onlyParts_setPc s a⟩,
    ⟨_, unlessHalted_of_running hr _, BitVec.toNat_add _ _, onlyParts_setDt s _⟩,
    fun k => ⟨writeKey_writes hr k true, writeKey_writes hr k false⟩⟩

/-- Settles O55: `RESET` is the reset state with the draw counter written back. -/
theorem resetOperationRestoresAll : Obligations.ResetOperationRestoresAll := fun _ =>
  ⟨_, rfl, onlyParts_setDrawCount _ _, rfl⟩

end Sys2Proof.Machine
end

section
/-! 44_blit.md, R100 to R108: the glyph that the machine reads and the glyph of the statements have the same pixels, and
so does a numeral's row of glyphs; each drawing instruction is then what a blit does to one pixel. -/

namespace Sys2Proof.Machine

open Sys2Proof.Claims

/-! ### The pixels of a glyph read from memory -/

/-- Byte `4*j + i` of a glyph in memory. -/
theorem glyphByte_readList (m : Memory) (a : Nat) {i j : Nat} (hi : i < 4) (hj : j < 8) :
    glyphByte (m.readList a 32) i j = m.read (a + (4 * j + i)) :=
  Memory.readList_getD m a 32 (4 * j + i) (by omega)

/-- The nibble that a blit reads is the pixel of the glyph at that address (44_blit.md R102). -/
theorem glyphNibble_readList_toNat (s : State) (a : Nat) {c j : Nat} (hc : c < 8) (hj : j < 8) :
    (glyphNibble (s.mem.readList a 32) c j).toNat = glyphPixel (s.glyphBytes a) c j := by
  rw [glyphNibble, glyphByte_readList s.mem a (by omega) hj, glyphPixel]
  split
  · exact highNibble_toNat _
  · exact lowNibble_toNat _

/-! ### The rules of the two modes, as numbers -/

/-- The ink writes what the rule says, as numbers. -/
def Follows (ink : Ink) (rule : Nat → Option Nat) : Prop :=
  ∀ (n : Nibble) (v : Byte), ((ink n).getD v).toNat = (rule n.toNat).getD v.toNat

theorem opaqueInk_follows : Follows opaqueInk opaqueRule := by
  intro n v
  have h : n = 0 ↔ n.toNat = 0 := BitVec.toNat_inj.symm
  simp only [opaqueInk, opaqueRule, h]
  split
  · rfl
  · exact litByte_toNat n

theorem keyedInk_follows (f : Byte) : Follows (keyedInk f) (keyedRule f.toNat) := by
  intro n v
  have h : n = 0xF ↔ n.toNat = 15 := BitVec.toNat_inj.symm
  simp only [keyedInk, keyedRule, h]
  split <;> rfl

/-- A blit of a glyph in memory draws that glyph by the rule its ink follows. -/
theorem drawn_blit {ink : Ink} {rule : Nat → Option Nat} (h : Follows ink rule) (s : State) (a x y : Nat) :
    Drawn rule (s.glyphBytes a) x y s (s.setFb (blit ink (s.mem.readList a 32) x y s.fb)) := by
  intro px py
  rw [State.pixel_setFb, pixel_blit]
  split
  · obtain ⟨hc, hr⟩ := ‹_ ∧ _›
    rw [h, glyphNibble_readList_toNat s a hc hr]; rfl
  · rfl

/-! ### The numeral -/

/-- A register value has at most three digits. -/
theorem numeralLength_le (v : Nat) : numeralLength v ≤ 3 := by
  unfold numeralLength
  split
  · omega
  · split <;> omega

/-- The model's digits of a register value are the numeral's, place by place (44_blit.md R107). -/
theorem decimalDigits_eq {v : Nat} (hv : v < 256) :
    decimalDigits v = (List.range (numeralLength v)).map (numeralDigit v) := by
  obtain h | ⟨h9, h99⟩ | h : v ≤ 9 ∨ (¬v ≤ 9 ∧ v ≤ 99) ∨ ¬v ≤ 99 := by omega
  · have hl : numeralLength v = 1 := if_pos h
    simp [decimalDigits, numeralDigit, hl, h, List.range_succ]; omega
  · have hl : numeralLength v = 2 := (if_neg h9).trans (if_pos h99)
    simp [decimalDigits, numeralDigit, hl, h9, h99, List.range_succ]; omega
  · have h9 : ¬v ≤ 9 := by omega
    have hl : numeralLength v = 3 := (if_neg h9).trans (if_neg h)
    simp [decimalDigits, numeralDigit, hl, h9, h, List.range_succ]; omega

/-- The glyphs that `NUM` draws are those of the numeral's digits, place by place. -/
theorem exec_num_eq_range (x y z : RegNo) (s : State) :
    exec (.num x y z) s = .next (s.setFb (blitRow (keyedInk s.fReg) (s.regNat y) (s.regNat z)
      ((List.range (numeralLength (s.regNat x))).map fun k =>
        s.mem.readList (Config.geometry.fontStart + numeralDigit (s.regNat x) k * 32) 32) s.fb)) := by
  rw [exec_num_eq, decimalDigits_eq (s.regNat_lt x), List.map_map]; rfl

/-! ### The torus -/

/-- A position and the position reduced modulo 64 are the same place (44_blit.md R100). -/
theorem torusOffset_mod (p : Fin 64) (o : Nat) : torusOffset p (o % 64) = torusOffset p o := by
  rw [torusOffset, torusOffset, Nat.mod_mod]

/-- A framebuffer is its pixels. -/
theorem framebuffer_ext {fb fb' : Framebuffer} (h : ∀ x y, fb.pixel x y = fb'.pixel x y) : fb = fb' :=
  Vector.ext fun x hx => Vector.ext fun y hy => h ⟨x, hx⟩ ⟨y, hy⟩

/-! ### The statements -/

/-- Settles O46: `DRW` is a blit of its sprite, which lies in memory, by the opaque rule. -/
theorem drwDrawsTheSprite : Obligations.DrwDrawsTheSprite := fun x y z s =>
  ⟨encodes_tableNumber (.drw x y z), _, exec_drw_eq x y z s, drawn_blit opaqueInk_follows s _ _ _, onlyPixels_setFb s _⟩

/-- Settles O47: `NUM` is a row of glyphs; at the pixel's column the row has the glyph of that digit. -/
theorem numDrawsTheNumeral : Obligations.NumDrawsTheNumeral := by
  intro x y z s
  refine ⟨encodes_tableNumber (.num x y z), _, exec_num_eq_range x y z s, onlyPixels_setFb s _, fun px py => ?_⟩
  have len := numeralLength_le (s.regNat x)
  rw [State.pixel_setFb, pixel_blitRow _ _ _ _ (by rw [List.length_map, List.length_range]; omega), List.length_map,
    List.length_range]
  simp only
  split
  · obtain ⟨hc, hr⟩ := ‹_ ∧ _›
    rw [List.getD_eq_getElem _ _ (by rw [List.length_map, List.length_range]; omega), List.getElem_map,
      List.getElem_range, keyedInk_follows, glyphNibble_readList_toNat s _ (Nat.mod_lt _ (by omega)) hr]
    rfl
  · rfl

/-- Settles O48: `DIG` is a blit of its glyph by the keyed rule; the ten digits lie in memory on every geometry. -/
theorem digDrawsTheGlyph : Obligations.DigDrawsTheGlyph := by
  intro x y z s h
  have lies : Config.geometry.fontStart + s.regNat x * 32 + 32 ≤ Config.geometry.memSize := by
    have := Config.geometry_wellFormed
    omega
  exact ⟨encodes_tableNumber (.dig x y z), _, exec_dig_of_le lies y z, drawn_blit (keyedInk_follows _) s _ _ _,
    onlyPixels_setFb s _⟩

/-- Settles O49: the drawing is one write of the latch, of a record with the instruction's word. -/
theorem digPastMemoryFaults : Obligations.DigPastMemoryFaults := by
  refine fun x y z s => ⟨rfl, fun g h => ?_⟩
  have hw : BitVec.ofNat 16 (0xF000 + 256 * x.toNat + 16 * y.toNat + z.toNat) = encode (.dig x y z) :=
    ofNat_tableNumber (.dig x y z)
  rw [State.drawDigit_of_lt h, hw]
  exact ⟨rfl, onlyParts_setFault s _⟩

/-- Settles O50: pixel by pixel, a blit reads a position only by how far each pixel lies beyond it. -/
theorem drawingWrapsModulo64 : Obligations.DrawingWrapsModulo64 := by
  intro ink g x y fb
  refine framebuffer_ext fun px py => ?_
  rw [pixel_blit, pixel_blit, torusOffset_mod, torusOffset_mod]

end Sys2Proof.Machine
end
